-- ==== Sys2Proof/Word.lean ====
section
/-! DEFINITION. The word types of the machine and nothing more: bytes, 16-bit fields, instruction words, register
indices (spec/00_scope.md R5 to R7). -/

namespace Sys2Proof

/-- A register value or a memory byte, an unsigned integer 0..255 (R7; `XLEN` = 8, R5). -/
abbrev Byte := BitVec 8

/-- A 16-bit field of an instruction (value, address, offset, displacement) and the program counter
(`VAL_BITS` = `PC_BITS` = 16, R5). -/
abbrev Half := BitVec 16

/-- An instruction word, `ILEN` = 32 bits (R5, R70). -/
abbrev Word := BitVec 32

/-- A register index, 0..15: `REG_BITS` = 4, all sixteen values valid (R5, R21, R83). -/
abbrev RegIdx := BitVec 4

end Sys2Proof
end

