-- ==== Sys2Proof/Config.lean ====
section
/-! DEFINITION. The parameters of the machine (spec/00_scope.md R5) and the fixed places of its registers and flag bits
(spec/10_state.md R22, R30). The spec leaves no value open, so there is no free value here. -/

namespace Sys2Proof.Config

/-- `MEM_SIZE`: bytes of memory, at addresses 0x000 to 0xFFF (R5, R37, R50). -/
abbrev memSize : Nat := 4096

/-- `LOAD_BASE`: where the image is placed and where `pc` starts (R5, R58, R211; the spec's decision D29). -/
abbrev loadBase : Nat := 0x200

/-- The length of every instruction in bytes (R5, R70). -/
abbrev instrBytes : Nat := 4

/-- What a byte outside the image holds after load (R58, R211; the spec's decision D30), and so what an address that
memory does not list reads as. -/
abbrev fillByte : Byte := 0

/-- Register indices that have a storage cell of their own: 0..12 general purpose, 13 `sp` (R20, R22). -/
abbrev cellCount : Nat := 14

/-- `sp`, an ordinary cell with a reserved name (R22, R26). -/
abbrev regSp : RegIdx := 13

/-- `cmp`, the window on `FLAGS` (R22). -/
abbrev regCmp : RegIdx := 14

/-- `zero`, the constant zero (R22). -/
abbrev regZero : RegIdx := 15

/-- `FLAGS.E`, bit 0: the last `CMP` found equal (R30). -/
abbrev flagE : Byte := 0x01

/-- `FLAGS.L`, bit 1: the last `CMP` found less-than (R30). -/
abbrev flagL : Byte := 0x02

/-- `FLAGS.DZ`, bit 2: a `DIV` had a zero divisor (R30). -/
abbrev flagDZ : Byte := 0x04

/-- `FLAGS.OV`, bit 3: an `ADD` or `MUL` result was above 255 (R30). -/
abbrev flagOV : Byte := 0x08

/-- `FLAGS.UF`, bit 4: a `SUB` result was below 0 (R30). -/
abbrev flagUF : Byte := 0x10

/-- The bits of `FLAGS` that exist, 4..0; bits 7..5 are always 0 (R25, R30). -/
abbrev flagsUsed : Byte := 0x1F

end Sys2Proof.Config
end

