-- ==== Sys2Proof/Syntax.lean ====
section
/-! DEFINITION. The instructions: one constructor for each row of spec/opcode_table.json, that is for each legal
(mnemonic, addressing mode) form of spec/30_encoding.md R81 and R82, and the operand shapes the forms share
(spec/40_step_and_operands.md R104 to R109). The fields have exactly the widths of the encoding (R83), so an operand out
of range cannot be written down. -/

namespace Sys2Proof

/-- The variable operand of a class B instruction or of `PRINT` (R104 to R106). -/
inductive Operand where
  /-- `Lit(V)`, tag 0: the 16-bit field itself (R104). -/
  | lit (v : Half)
  /-- `Reg(r)`, tag 1: register-direct (R105). -/
  | reg (r : RegIdx)
  /-- `Rel(rb, OFF)`, tag 2: the memory byte at `OFF + x[rb]` (R106). -/
  | rel (rb : RegIdx) (off : Half)
deriving DecidableEq, Repr

/-- The operand of a jump (R104, R109). -/
inductive Target where
  /-- `Lit(V)`, tag 0: the absolute address `V` (R104). -/
  | lit (v : Half)
  /-- `Pcr(D)`, tag 3: relative to the jump's own address (R109). -/
  | pcr (d : Half)
deriving DecidableEq, Repr

/-- The instructions of R81 in the forms of R82. The suffix names the addressing mode of the variable operand: `Lit`,
`Reg`, `Rel` or `Pcr`. -/
inductive Instr where
  /-- `HLT`, format N (R170). -/
  | hlt
  /-- `LDR`, format B.LIT: load the source into `rd` (R120). -/
  | ldrLit (rd : RegIdx) (v : Half)
  /-- `LDR`, format B.REG (R120). -/
  | ldrReg (rd r1 : RegIdx)
  /-- `LDR`, format B.REL (R120). -/
  | ldrRel (rd rb : RegIdx) (off : Half)
  /-- `STR`, format B.LIT: store `rs` to the destination (R121). -/
  | strLit (rs : RegIdx) (v : Half)
  /-- `STR`, format B.REG (R121). -/
  | strReg (rs rt : RegIdx)
  /-- `STR`, format B.REL (R121). -/
  | strRel (rs rb : RegIdx) (off : Half)
  /-- `ADD`, format B.LIT: add (R131). -/
  | addLit (rd : RegIdx) (v : Half)
  /-- `ADD`, format B.REG (R131). -/
  | addReg (rd r1 : RegIdx)
  /-- `ADD`, format B.REL (R131). -/
  | addRel (rd rb : RegIdx) (off : Half)
  /-- `SUB`, format B.LIT: subtract (R132). -/
  | subLit (rd : RegIdx) (v : Half)
  /-- `SUB`, format B.REG (R132). -/
  | subReg (rd r1 : RegIdx)
  /-- `SUB`, format B.REL (R132). -/
  | subRel (rd rb : RegIdx) (off : Half)
  /-- `MUL`, format B.LIT: multiply (R133). -/
  | mulLit (rd : RegIdx) (v : Half)
  /-- `MUL`, format B.REG (R133). -/
  | mulReg (rd r1 : RegIdx)
  /-- `MUL`, format B.REL (R133). -/
  | mulRel (rd rb : RegIdx) (off : Half)
  /-- `DIV`, format B.LIT: divide (R134). -/
  | divLit (rd : RegIdx) (v : Half)
  /-- `DIV`, format B.REG (R134). -/
  | divReg (rd r1 : RegIdx)
  /-- `DIV`, format B.REL (R134). -/
  | divRel (rd rb : RegIdx) (off : Half)
  /-- `XOR`, format B.LIT: bitwise exclusive OR (R135). -/
  | xorLit (rd : RegIdx) (v : Half)
  /-- `XOR`, format B.REG (R135). -/
  | xorReg (rd r1 : RegIdx)
  /-- `XOR`, format B.REL (R135). -/
  | xorRel (rd rb : RegIdx) (off : Half)
  /-- `AND`, format B.LIT: bitwise AND (R136). -/
  | andLit (rd : RegIdx) (v : Half)
  /-- `AND`, format B.REG (R136). -/
  | andReg (rd r1 : RegIdx)
  /-- `AND`, format B.REL (R136). -/
  | andRel (rd rb : RegIdx) (off : Half)
  /-- `OR`, format B.LIT: bitwise OR (R137). -/
  | orLit (rd : RegIdx) (v : Half)
  /-- `OR`, format B.REG (R137). -/
  | orReg (rd r1 : RegIdx)
  /-- `OR`, format B.REL (R137). -/
  | orRel (rd rb : RegIdx) (off : Half)
  /-- `NOT`, format B.LIT: complement of the operand into `rd` (R138). -/
  | notLit (rd : RegIdx) (v : Half)
  /-- `NOT`, format B.REG (R138). -/
  | notReg (rd r1 : RegIdx)
  /-- `NOT`, format B.REL (R138). -/
  | notRel (rd rb : RegIdx) (off : Half)
  /-- `CMP`, format B.LIT: compare `ra` with the operand (R150). -/
  | cmpLit (ra : RegIdx) (v : Half)
  /-- `CMP`, format B.REG (R150). -/
  | cmpReg (ra r1 : RegIdx)
  /-- `CMP`, format B.REL (R150). -/
  | cmpRel (ra rb : RegIdx) (off : Half)
  /-- `JMP`, format U.LIT: jump always (R162). -/
  | jmpLit (v : Half)
  /-- `JMP`, format U.PCR (R162). -/
  | jmpPcr (d : Half)
  /-- `JMPL`, format U.LIT: jump if less-than (R163). -/
  | jmplLit (v : Half)
  /-- `JMPL`, format U.PCR (R163). -/
  | jmplPcr (d : Half)
  /-- `JMPG`, format U.LIT: jump if greater-than (R164). -/
  | jmpgLit (v : Half)
  /-- `JMPG`, format U.PCR (R164). -/
  | jmpgPcr (d : Half)
  /-- `JMPLE`, format U.LIT: jump if less-than or equal (R165). -/
  | jmpleLit (v : Half)
  /-- `JMPLE`, format U.PCR (R165). -/
  | jmplePcr (d : Half)
  /-- `JMPGE`, format U.LIT: jump if greater-than or equal (R166). -/
  | jmpgeLit (v : Half)
  /-- `JMPGE`, format U.PCR (R166). -/
  | jmpgePcr (d : Half)
  /-- `PRINT`, format U.LIT: emit the operand on the output port (R171). -/
  | printLit (v : Half)
  /-- `PRINT`, format U.REG (R171). -/
  | printReg (rs : RegIdx)
  /-- `PRINT`, format U.REL (R171). -/
  | printRel (rb : RegIdx) (off : Half)
deriving DecidableEq, Repr

end Sys2Proof
end

