-- ==== Sys2Proof/WellFormed.lean ====
section
/-! DEFINITION. Which instructions are well formed: the header (opcode number and addressing-mode tag) an instruction
is encoded with must be one the machine accepts (spec/30_encoding.md R81, R82, R85). The operand fields need no check,
since their types have the widths of the encoding. -/

namespace Sys2Proof

/-- The header of an instruction word: `opc = w[31:27]` and `tag = w[26:24]` (R71). -/
structure Header where
  opc : BitVec 5
  tag : BitVec 3
deriving DecidableEq, Repr

/-- Whether the machine accepts a header: the sets of R82, the class "legal" of R85. `HLT` takes any tag, class B and
`PRINT` take 0, 1, 2, the jumps 0 and 3, and opcodes 18 to 31 are undefined. -/
def Header.legal (h : Header) : Bool :=
  if h.opc.toNat = 0 then true
  else if h.opc.toNat ≤ 11 then decide (h.tag.toNat ≤ 2)
  else if h.opc.toNat ≤ 16 then decide (h.tag.toNat = 0 ∨ h.tag.toNat = 3)
  else if h.opc.toNat = 17 then decide (h.tag.toNat ≤ 2)
  else false

/-- The header each form is encoded with: the opcode numbers of R81 and the tags of R72. The Encoder writes tag 0 for
`HLT` (R84). -/
def Instr.header (i : Instr) : Header :=
  match i with
  | .hlt => ⟨0, 0⟩
  | .ldrLit _ _ => ⟨1, 0⟩
  | .ldrReg _ _ => ⟨1, 1⟩
  | .ldrRel _ _ _ => ⟨1, 2⟩
  | .strLit _ _ => ⟨2, 0⟩
  | .strReg _ _ => ⟨2, 1⟩
  | .strRel _ _ _ => ⟨2, 2⟩
  | .addLit _ _ => ⟨3, 0⟩
  | .addReg _ _ => ⟨3, 1⟩
  | .addRel _ _ _ => ⟨3, 2⟩
  | .subLit _ _ => ⟨4, 0⟩
  | .subReg _ _ => ⟨4, 1⟩
  | .subRel _ _ _ => ⟨4, 2⟩
  | .mulLit _ _ => ⟨5, 0⟩
  | .mulReg _ _ => ⟨5, 1⟩
  | .mulRel _ _ _ => ⟨5, 2⟩
  | .divLit _ _ => ⟨6, 0⟩
  | .divReg _ _ => ⟨6, 1⟩
  | .divRel _ _ _ => ⟨6, 2⟩
  | .xorLit _ _ => ⟨7, 0⟩
  | .xorReg _ _ => ⟨7, 1⟩
  | .xorRel _ _ _ => ⟨7, 2⟩
  | .andLit _ _ => ⟨8, 0⟩
  | .andReg _ _ => ⟨8, 1⟩
  | .andRel _ _ _ => ⟨8, 2⟩
  | .orLit _ _ => ⟨9, 0⟩
  | .orReg _ _ => ⟨9, 1⟩
  | .orRel _ _ _ => ⟨9, 2⟩
  | .notLit _ _ => ⟨10, 0⟩
  | .notReg _ _ => ⟨10, 1⟩
  | .notRel _ _ _ => ⟨10, 2⟩
  | .cmpLit _ _ => ⟨11, 0⟩
  | .cmpReg _ _ => ⟨11, 1⟩
  | .cmpRel _ _ _ => ⟨11, 2⟩
  | .jmpLit _ => ⟨12, 0⟩
  | .jmpPcr _ => ⟨12, 3⟩
  | .jmplLit _ => ⟨13, 0⟩
  | .jmplPcr _ => ⟨13, 3⟩
  | .jmpgLit _ => ⟨14, 0⟩
  | .jmpgPcr _ => ⟨14, 3⟩
  | .jmpleLit _ => ⟨15, 0⟩
  | .jmplePcr _ => ⟨15, 3⟩
  | .jmpgeLit _ => ⟨16, 0⟩
  | .jmpgePcr _ => ⟨16, 3⟩
  | .printLit _ => ⟨17, 0⟩
  | .printReg _ => ⟨17, 1⟩
  | .printRel _ _ => ⟨17, 2⟩

/-- An instruction is well formed when its header is legal (R85). -/
abbrev Instr.WellFormed (i : Instr) : Prop := i.header.legal = true

end Sys2Proof
end

