-- ==== Sys2Proof/Decode.lean ====
section
/-! DEFINITION. The decoder, total on any word and on any bytes and rejecting by name (spec/30_encoding.md R85, R86),
and after it the encoder, its inverse (R73 to R80, R94). The byte-order and bit-field helpers stand first. -/

namespace Sys2Proof

/-- The bits `w[lo + n - 1 : lo]` (R6). -/
def field (w : Word) (lo n : Nat) : BitVec n := w.extractLsb' lo n

/-- The word of four bytes, the first in bits 31..24: instruction words are big-endian (R51). -/
def wordOfBytes (b0 b1 b2 b3 : Byte) : Word := b0 ++ b1 ++ b2 ++ b3

/-- The four bytes of a word in memory order (R51, R94). -/
def bytesOfWord (w : Word) : List Byte := [field w 24 8, field w 16 8, field w 8 8, field w 0 8]

/-- The two classes of words that are no instruction (R85). -/
inductive BadWord where
  /-- The opcode field is 18..31 (R188). -/
  | unknownOpcode
  /-- A defined opcode with a tag outside its legal set (R189). -/
  | illegalMode
deriving DecidableEq, Repr

/-- Why bytes do not decode. -/
inductive DecodeError where
  /-- They are not four bytes, and every instruction is exactly four (R70). -/
  | notFourBytes
  /-- The word they make is no instruction. -/
  | badWord (b : BadWord)
deriving DecidableEq, Repr

/-- Class B: the target register `w[23:20]`, then the operand the tag selects, in formats B.LIT, B.REG, B.REL
(R78 to R80, R86). -/
def decodeClassB (w : Word) (lit : RegIdx → Half → Instr) (reg : RegIdx → RegIdx → Instr)
    (rel : RegIdx → RegIdx → Half → Instr) : Except BadWord Instr :=
  match (field w 24 3).toNat with
  | 0 => .ok (lit (field w 20 4) (field w 4 16))
  | 1 => .ok (reg (field w 20 4) (field w 16 4))
  | 2 => .ok (rel (field w 20 4) (field w 16 4) (field w 0 16))
  | _ => .error .illegalMode

/-- Class U with a jump target: formats U.LIT and U.PCR (R75, R86). -/
def decodeJump (w : Word) (lit pcr : Half → Instr) : Except BadWord Instr :=
  match (field w 24 3).toNat with
  | 0 => .ok (lit (field w 8 16))
  | 3 => .ok (pcr (field w 8 16))
  | _ => .error .illegalMode

/-- Class U with a data operand, `PRINT` alone: formats U.LIT, U.REG, U.REL (R75 to R77, R86). -/
def decodePrint (w : Word) : Except BadWord Instr :=
  match (field w 24 3).toNat with
  | 0 => .ok (.printLit (field w 8 16))
  | 1 => .ok (.printReg (field w 20 4))
  | 2 => .ok (.printRel (field w 20 4) (field w 4 16))
  | _ => .error .illegalMode

/-- The decoder, total on any word (R86). The opcode is looked at first, so a word of unknown opcode is not examined
further (R102, R188), and bits no format names are not looked at (R84). -/
def decodeWord (w : Word) : Except BadWord Instr :=
  match (field w 27 5).toNat with
  | 0 => .ok .hlt
  | 1 => decodeClassB w .ldrLit .ldrReg .ldrRel
  | 2 => decodeClassB w .strLit .strReg .strRel
  | 3 => decodeClassB w .addLit .addReg .addRel
  | 4 => decodeClassB w .subLit .subReg .subRel
  | 5 => decodeClassB w .mulLit .mulReg .mulRel
  | 6 => decodeClassB w .divLit .divReg .divRel
  | 7 => decodeClassB w .xorLit .xorReg .xorRel
  | 8 => decodeClassB w .andLit .andReg .andRel
  | 9 => decodeClassB w .orLit .orReg .orRel
  | 10 => decodeClassB w .notLit .notReg .notRel
  | 11 => decodeClassB w .cmpLit .cmpReg .cmpRel
  | 12 => decodeJump w .jmpLit .jmpPcr
  | 13 => decodeJump w .jmplLit .jmplPcr
  | 14 => decodeJump w .jmpgLit .jmpgPcr
  | 15 => decodeJump w .jmpleLit .jmplePcr
  | 16 => decodeJump w .jmpgeLit .jmpgePcr
  | 17 => decodePrint w
  | _ => .error .unknownOpcode

/-- The decoder on bytes in memory order. Every instruction is exactly four bytes (R70). -/
def decode (bytes : List Byte) : Except DecodeError Instr :=
  match bytes with
  | [b0, b1, b2, b3] =>
    match decodeWord (wordOfBytes b0 b1 b2 b3) with
    | .ok i => .ok i
    | .error b => .error (.badWord b)
  | _ => .error .notFourBytes

/-- The instruction word the opcode table's number `w` of `nbits` bits stands for. The table numbers bit 0 as the least
significant bit of the 32-bit word, and bits from `nbits` up are 0. -/
def tableWord (nbits w : Nat) : Word := BitVec.ofNat 32 (w % 2 ^ nbits)

/-- What the decoder reads from the bytes of a table row's word, laid out as the hardware stores them (R51). -/
def decodeTableWord (nbits w : Nat) : Option Instr :=
  match decode (bytesOfWord (tableWord nbits w)) with
  | .ok i => some i
  | .error _ => none

/-- Format N (R74). -/
def packN (h : Header) : Word := h.opc ++ h.tag ++ 0#24

/-- Formats U.LIT and U.PCR (R75). -/
def packUValue (h : Header) (v : Half) : Word := h.opc ++ h.tag ++ v ++ 0#8

/-- Format U.REG (R76). -/
def packUReg (h : Header) (rs : RegIdx) : Word := h.opc ++ h.tag ++ rs ++ 0#20

/-- Format U.REL (R77). -/
def packURel (h : Header) (rb : RegIdx) (off : Half) : Word := h.opc ++ h.tag ++ rb ++ off ++ 0#4

/-- Format B.LIT (R78). -/
def packBLit (h : Header) (r0 : RegIdx) (v : Half) : Word := h.opc ++ h.tag ++ r0 ++ v ++ 0#4

/-- Format B.REG (R79). -/
def packBReg (h : Header) (r0 r1 : RegIdx) : Word := h.opc ++ h.tag ++ r0 ++ r1 ++ 0#16

/-- Format B.REL (R80). -/
def packBRel (h : Header) (r0 rb : RegIdx) (off : Half) : Word := h.opc ++ h.tag ++ r0 ++ rb ++ off

/-- The encoder: the header, then each operand's fields from bit 23 downward in source order, ignored bits 0
(R73, R84, R94). -/
def encode (i : Instr) : Word :=
  match i with
  | .hlt => packN i.header
  | .ldrLit r v
  | .strLit r v
  | .addLit r v
  | .subLit r v
  | .mulLit r v
  | .divLit r v
  | .xorLit r v
  | .andLit r v
  | .orLit r v
  | .notLit r v
  | .cmpLit r v => packBLit i.header r v
  | .ldrReg r r1
  | .strReg r r1
  | .addReg r r1
  | .subReg r r1
  | .mulReg r r1
  | .divReg r r1
  | .xorReg r r1
  | .andReg r r1
  | .orReg r r1
  | .notReg r r1
  | .cmpReg r r1 => packBReg i.header r r1
  | .ldrRel r rb off
  | .strRel r rb off
  | .addRel r rb off
  | .subRel r rb off
  | .mulRel r rb off
  | .divRel r rb off
  | .xorRel r rb off
  | .andRel r rb off
  | .orRel r rb off
  | .notRel r rb off
  | .cmpRel r rb off => packBRel i.header r rb off
  | .jmpLit v | .jmplLit v | .jmpgLit v | .jmpleLit v | .jmpgeLit v | .printLit v => packUValue i.header v
  | .jmpPcr d | .jmplPcr d | .jmpgPcr d | .jmplePcr d | .jmpgePcr d => packUValue i.header d
  | .printReg rs => packUReg i.header rs
  | .printRel rb off => packURel i.header rb off

/-- The bytes of an instruction in memory order (R51, R94). -/
def encodeBytes (i : Instr) : List Byte := bytesOfWord (encode i)

end Sys2Proof
end

