-- ==== Sys2Proof/Machine/State.lean ====
section
/-! DEFINITION. The whole state of the machine as plain data (spec/10_state.md R20: "There is nothing else"), its
reset value (R40), and the reasons a step could stop. -/

namespace Sys2Proof.Machine

/-- The run state (R35). -/
inductive RunState where
  | running
  | halted
deriving DecidableEq, Repr

/-- Why the machine halted (R36, R181). The host alone reads it. -/
inductive Cause where
  /-- `NONE`: not halted since reset. -/
  | none
  /-- `HALT_INSTRUCTION`: a `HLT` was executed. -/
  | haltInstruction
  /-- `UNKNOWN_OPCODE`: opcode field 18..31. -/
  | unknownOpcode
  /-- `ILLEGAL_MODE`: tag not legal for the opcode. -/
  | illegalMode
  /-- `FETCH_OUT_OF_RANGE`: `pc > 4092` at fetch. -/
  | fetchOutOfRange
  /-- `DATA_OUT_OF_RANGE`: data address above 4095. -/
  | dataOutOfRange
deriving DecidableEq, Repr

/-- The 3-bit value of the `CAUSE` register (R36). -/
def Cause.code (c : Cause) : BitVec 3 :=
  match c with
  | .none => 0
  | .haltInstruction => 1
  | .unknownOpcode => 2
  | .illegalMode => 3
  | .fetchOutOfRange => 4
  | .dataOutOfRange => 5

/-- `MEM` (R37): the bytes that differ from `Config.fillByte`, by strictly rising address. -/
abbrev Memory := List Host.Cell

/-- The canonical form of a memory whose addresses are all at least `lo`: strictly rising, inside the address space
(R50), and no byte equal to what an unlisted address reads as. -/
def Memory.wfFrom (lo : Nat) (m : Memory) : Bool :=
  match m with
  | [] => true
  | (a, v) :: rest => decide (lo ≤ a) && decide (a < Config.memSize) && decide (v ≠ Config.fillByte) && wfFrom (a + 1) rest

/-- The canonical form of a memory; equal memories are then equal lists. -/
def Memory.wf (m : Memory) : Bool := Memory.wfFrom 0 m

/-- The state (R20). -/
structure State where
  /-- `R[0..13]`: `r0` to `r12` and `sp` (R21, R22, R26). -/
  regs : Vector Byte Config.cellCount
  /-- `FLAGS` (R30). -/
  flags : Byte
  /-- The program counter (R27). -/
  pc : Half
  /-- `STATE` (R35). -/
  run : RunState
  /-- `CAUSE` (R36). -/
  cause : Cause
  /-- `MEM` (R37). -/
  mem : Memory
  /-- `OUT`, oldest value first (R38). -/
  out : List Byte
deriving DecidableEq, Repr

/-- The machine right after reset (R40). Memory is not changed by reset: here it is what the load of the empty image
leaves, all `Config.fillByte` (R211; log entry 3). -/
def State.reset : State where
  regs := Vector.replicate Config.cellCount 0
  flags := 0
  pc := BitVec.ofNat 16 Config.loadBase
  run := .running
  cause := .none
  mem := []
  out := []

/-- Outcomes that are no state. It has no constructor: the spec's faults are states (`Halted` with a `CAUSE`, R184),
every step has exactly one next state (R101), and so nobody raises one. Safe (log entry 2). -/
inductive Fault where
deriving DecidableEq, Repr

/-- Reasons for which the model gives an instruction no meaning. -/
inductive Refusal where
  /-- Raised by an arm of `exec` for an instruction that has no meaning yet. No arm raises it: every row of the opcode
  table has its meaning. Safe. -/
  | notModelled (mnemonic : String)
deriving DecidableEq, Repr

/-- What running an instruction or a step answers. -/
abbrev Result := Host.Outcome State Fault Refusal

end Sys2Proof.Machine
end

