-- ==== Sys2Proof/Machine/Ops.lean ====
section
/-! DEFINITION. The named operations over registers, memory, the program counter, the output port and the run state,
fault entry among them. Every read and write of a piece of state by an instruction goes through one of these. -/

namespace Sys2Proof.Machine

/-- `x[i]`: a cell, the window on `FLAGS`, or the constant zero (R24). A read has no side effect. -/
def readReg (i : RegIdx) (s : State) : Byte :=
  if h : i.toNat < Config.cellCount then s.regs[i.toNat]
  else if i = Config.regCmp then s.flags
  else 0

/-- `x[i] <- v`: a cell, or the used bits of `FLAGS`, or nothing (R25). -/
def writeReg (i : RegIdx) (v : Byte) (s : State) : State :=
  { s with
    regs := if h : i.toNat < Config.cellCount then s.regs.set i.toNat v else s.regs
    flags := if i = Config.regCmp then v &&& Config.flagsUsed else s.flags }

/-- `FLAGS <- f`: the flag update of an instruction, done after its register write-back (R33). -/
def setFlags (f : Byte) (s : State) : State := { s with flags := f }

/-- One byte of memory (R53). An address that is not listed holds `Config.fillByte` (R58, R211). -/
def memRead (m : Memory) (a : Nat) : Byte :=
  match m with
  | [] => Config.fillByte
  | (k, v) :: rest => if k = a then v else memRead rest a

/-- `MEM[a] <- v`, keeping the canonical form (R54). -/
def memWrite (m : Memory) (a : Nat) (v : Byte) : Memory :=
  match m with
  | [] => if v = Config.fillByte then [] else [(a, v)]
  | (k, u) :: rest =>
    if k < a then (k, u) :: memWrite rest a v
    else if k = a then (if v = Config.fillByte then rest else (a, v) :: rest)
    else if v = Config.fillByte then (k, u) :: rest else (a, v) :: (k, u) :: rest

/-- `MemRead(a, 4)`: four bytes, `MEM[a]` in bits 31..24 (R53). -/
def memReadWord (m : Memory) (a : Nat) : Word :=
  wordOfBytes (memRead m a) (memRead m (a + 1)) (memRead m (a + 2)) (memRead m (a + 3))

/-- Bytes stored at rising addresses from `a` on: the copy of an image by the host's load (R211). -/
def memWriteAll (m : Memory) (a : Nat) (bytes : List Byte) : Memory :=
  match bytes with
  | [] => m
  | v :: rest => memWriteAll (memWrite m a v) (a + 1) rest

/-- Whether a data byte exists at an address, which is never reduced modulo the size of memory (R50, R59, R187). -/
def addressExists (a : Nat) : Bool := decide (a < Config.memSize)

/-- `MemWrite(a, 1, v)` on the state (R54); the caller has checked the address. -/
def storeByte (a : Nat) (v : Byte) (s : State) : State := { s with mem := memWrite s.mem a v }

/-- `OUT.append(v)` (R38). -/
def emit (v : Byte) (s : State) : State := { s with out := s.out ++ [v] }

/-- The sequential advance, `pc <- (pc + 4) mod 65536` (R28, R100). -/
def advance (s : State) : State := { s with pc := s.pc + BitVec.ofNat 16 Config.instrBytes }

/-- `pc <- t`; the target is not checked when it is written (R29, R161). -/
def jumpTo (t : Half) (s : State) : State := { s with pc := t }

/-- Entry to `Halted` with its cause; everything else, `pc` included, stays (R35, R36). -/
def haltWith (c : Cause) (s : State) : State := { s with run := .halted, cause := c }

/-- `raise Fault(c)`: "`STATE <- Halted`, `CAUSE <- c`. Exactly this and nothing else" (R184). The machine goes to no
handler and saves nothing, so the faulted state is the next state. -/
def takeFault (c : Cause) (s : State) : Result := .next (haltWith c s)

/-- A step asked for in `Halted` changes nothing (R35, R100). There is no return from a fault or from `HLT` (R192):
`Halted` is left only by the host's reset, `hostReset`. -/
def stayHalted (s : State) : Result := .next s

end Sys2Proof.Machine
end

