-- ==== Sys2Proof/Machine/Flags.lean ====
section
/-! DEFINITION. Every flag computation of the machine (spec/10_state.md R30 to R32, spec/42_alu.md R130,
spec/43_compare.md R150, spec/44_jumps.md R160). Each takes the old `FLAGS` and gives the new. -/

namespace Sys2Proof.Machine

/-- The narrowed result of exact arithmetic, `wide mod 256`, the remainder in 0..255 (R7, R130). -/
def narrow (wide : Int) : Byte := BitVec.ofInt 8 wide

/-- `if wide > 255: FLAGS.OV <- 1`, sticky (R130). -/
def raiseOverflow (wide : Int) (f : Byte) : Byte := if wide > 255 then f ||| Config.flagOV else f

/-- `if wide < 0: FLAGS.UF <- 1`, sticky (R130). -/
def raiseUnderflow (wide : Int) (f : Byte) : Byte := if wide < 0 then f ||| Config.flagUF else f

/-- `FLAGS.DZ <- 1` (R130, R134). -/
def raiseDivideByZero (f : Byte) : Byte := f ||| Config.flagDZ

/-- What `CMP` makes of `FLAGS` for the signed difference `d`: bits 1..0 cleared, then `E` for zero, `L` for negative,
neither for positive; the other bits unchanged (R150). -/
def compareFlags (d : Int) (f : Byte) : Byte :=
  let cleared := f &&& ~~~(Config.flagE ||| Config.flagL)
  if d = 0 then cleared ||| Config.flagE
  else if d < 0 then cleared ||| Config.flagL
  else cleared

/-- The compare code `FLAGS[1:0]` (R30, R160). -/
def compareCode (f : Byte) : BitVec 2 := f.extractLsb' 0 2

/-- The code equal (R30). -/
abbrev codeEqual : BitVec 2 := 0b01

/-- The code less-than (R30). -/
abbrev codeLess : BitVec 2 := 0b10

/-- The code greater-than, also the all-clear code (R30, R152). -/
abbrev codeGreater : BitVec 2 := 0b00

end Sys2Proof.Machine
end

