-- ==== Sys2Proof/Machine/Operands.lean ====
section
/-! DEFINITION. Operand resolution, every form (spec/40_step_and_operands.md R104 to R109), and the two shapes an
instruction with a data operand has: read a source, or store to a destination. -/

namespace Sys2Proof.Machine

/-- `EA = OFF + x[rb]`, both unsigned, without wrap: 0..65790 (R106). -/
def effectiveAddress (rb : RegIdx) (off : Half) (s : State) : Nat := off.toNat + (readReg rb s).toNat

/-- `val(opnd)`, an unsigned integer 0..65535 (R107); none where the data address does not exist, that is where
`check(opnd)` raises `DATA_OUT_OF_RANGE` (R106, R111). -/
def sourceValue (op : Operand) (s : State) : Option Nat :=
  match op with
  | .lit v => some v.toNat
  | .reg r => some (readReg r s).toNat
  | .rel rb off =>
    if addressExists (effectiveAddress rb off s) then some (memRead s.mem (effectiveAddress rb off s)).toNat else none

/-- Run an instruction that reads its variable operand: the range check first, then the effect on the value read, then
the sequential advance (R100, R107, R111). -/
def withSource (op : Operand) (s : State) (effect : Nat → State) : Result :=
  match sourceValue op s with
  | some b => .next (advance (effect b))
  | none => takeFault .dataOutOfRange s

/-- The memory address a store's destination names: the literal itself or the effective address (R104, R106, R121);
none where the destination is a register. -/
def storeAddress (op : Operand) (s : State) : Option Nat :=
  match op with
  | .lit v => some v.toNat
  | .reg _ => none
  | .rel rb off => some (effectiveAddress rb off s)

/-- Store the byte `v` at address `a` and advance, or fault when no byte exists there (R121). -/
def storeChecked (a : Nat) (v : Byte) (s : State) : Result :=
  if addressExists a then .next (advance (storeByte a v s)) else takeFault .dataOutOfRange s

/-- Store the byte `v` to a destination operand (R121). -/
def storeTo (op : Operand) (v : Byte) (s : State) : Result :=
  match op with
  | .lit a => storeChecked a.toNat v s
  | .reg r => .next (advance (writeReg r v s))
  | .rel rb off => storeChecked (effectiveAddress rb off s) v s

/-- `target(opnd)`: the literal, or the jump's own address plus the displacement modulo 65536 (R109, R161). -/
def targetAddress (t : Target) (s : State) : Half :=
  match t with
  | .lit v => v
  | .pcr d => s.pc + d

/-- The low 8 bits of an operand value, `b mod 256`: what moves, logic and `PRINT` use (R107, R130). -/
def lowByte (b : Nat) : Byte := BitVec.ofNat 8 b

end Sys2Proof.Machine
end

