-- ==== Sys2Proof/Machine/Alu.lean ====
section
/-! DEFINITION. The ALU: `ADD`, `SUB`, `MUL`, `DIV`, `XOR`, `AND`, `OR`, `NOT` (spec/42_alu.md R130 to R139). The target
register is the left input and the destination; the operand is the right input. -/

namespace Sys2Proof.Machine

/-- The common shape of `ADD`, `SUB` and `MUL` (R130): the wide result of the whole operand value in unbounded integers,
its narrowing written back, and then the flag it raises (R33). -/
def arithmetic (wideOf : Int → Int → Int) (raise : Int → Byte → Byte) (rd : RegIdx) (op : Operand) (s : State) : Result :=
  withSource op s fun b =>
    let wide := wideOf (readReg rd s).toNat b
    let written := writeReg rd (narrow wide) s
    setFlags (raise wide written.flags) written

/-- The common shape of `XOR`, `AND`, `OR` and `NOT` (R130): the low byte of the operand, and no flag. -/
def logic (resultOf : Byte → Byte → Byte) (rd : RegIdx) (op : Operand) (s : State) : Result :=
  withSource op s fun b => writeReg rd (resultOf (readReg rd s) (lowByte b)) s

/-- `ADD $rd, <op>` (R131). -/
def opAdd (rd : RegIdx) (op : Operand) (s : State) : Result := arithmetic (· + ·) raiseOverflow rd op s

/-- `SUB $rd, <op>` (R132). -/
def opSub (rd : RegIdx) (op : Operand) (s : State) : Result := arithmetic (· - ·) raiseUnderflow rd op s

/-- `MUL $rd, <op>` (R133). -/
def opMul (rd : RegIdx) (op : Operand) (s : State) : Result := arithmetic (· * ·) raiseOverflow rd op s

/-- `DIV $rd, <op>`: the quotient rounded toward zero, or `DZ` and no register write for a zero divisor (R134). -/
def opDiv (rd : RegIdx) (op : Operand) (s : State) : Result :=
  withSource op s fun b =>
    if b = 0 then setFlags (raiseDivideByZero s.flags) s
    else writeReg rd (BitVec.ofNat 8 ((readReg rd s).toNat / b)) s

/-- `XOR $rd, <op>` (R135). -/
def opXor (rd : RegIdx) (op : Operand) (s : State) : Result := logic (· ^^^ ·) rd op s

/-- `AND $rd, <op>` (R136). -/
def opAnd (rd : RegIdx) (op : Operand) (s : State) : Result := logic (· &&& ·) rd op s

/-- `OR $rd, <op>` (R137). -/
def opOr (rd : RegIdx) (op : Operand) (s : State) : Result := logic (· ||| ·) rd op s

/-- `NOT $rd, <op>`: the complement of the operand; the old value of the target is not an input (R138). -/
def opNot (rd : RegIdx) (op : Operand) (s : State) : Result := logic (fun _ b => ~~~b) rd op s

def execAddLit (rd : RegIdx) (v : Half) (s : State) : Result := opAdd rd (.lit v) s

def execAddReg (rd r1 : RegIdx) (s : State) : Result := opAdd rd (.reg r1) s

def execAddRel (rd rb : RegIdx) (off : Half) (s : State) : Result := opAdd rd (.rel rb off) s

def execSubLit (rd : RegIdx) (v : Half) (s : State) : Result := opSub rd (.lit v) s

def execSubReg (rd r1 : RegIdx) (s : State) : Result := opSub rd (.reg r1) s

def execSubRel (rd rb : RegIdx) (off : Half) (s : State) : Result := opSub rd (.rel rb off) s

def execMulLit (rd : RegIdx) (v : Half) (s : State) : Result := opMul rd (.lit v) s

def execMulReg (rd r1 : RegIdx) (s : State) : Result := opMul rd (.reg r1) s

def execMulRel (rd rb : RegIdx) (off : Half) (s : State) : Result := opMul rd (.rel rb off) s

def execDivLit (rd : RegIdx) (v : Half) (s : State) : Result := opDiv rd (.lit v) s

def execDivReg (rd r1 : RegIdx) (s : State) : Result := opDiv rd (.reg r1) s

def execDivRel (rd rb : RegIdx) (off : Half) (s : State) : Result := opDiv rd (.rel rb off) s

def execXorLit (rd : RegIdx) (v : Half) (s : State) : Result := opXor rd (.lit v) s

def execXorReg (rd r1 : RegIdx) (s : State) : Result := opXor rd (.reg r1) s

def execXorRel (rd rb : RegIdx) (off : Half) (s : State) : Result := opXor rd (.rel rb off) s

def execAndLit (rd : RegIdx) (v : Half) (s : State) : Result := opAnd rd (.lit v) s

def execAndReg (rd r1 : RegIdx) (s : State) : Result := opAnd rd (.reg r1) s

def execAndRel (rd rb : RegIdx) (off : Half) (s : State) : Result := opAnd rd (.rel rb off) s

def execOrLit (rd : RegIdx) (v : Half) (s : State) : Result := opOr rd (.lit v) s

def execOrReg (rd r1 : RegIdx) (s : State) : Result := opOr rd (.reg r1) s

def execOrRel (rd rb : RegIdx) (off : Half) (s : State) : Result := opOr rd (.rel rb off) s

def execNotLit (rd : RegIdx) (v : Half) (s : State) : Result := opNot rd (.lit v) s

def execNotReg (rd r1 : RegIdx) (s : State) : Result := opNot rd (.reg r1) s

def execNotRel (rd rb : RegIdx) (off : Half) (s : State) : Result := opNot rd (.rel rb off) s

end Sys2Proof.Machine
end

