-- ==== Sys2Proof/Machine/Compare.lean ====
section
/-! DEFINITION. `CMP` (spec/43_compare.md R150 to R152). -/

namespace Sys2Proof.Machine

/-- `CMP $ra, <op>`: the two low flag bits from the signed difference of two unsigned values; no register is written
(R150). -/
def opCmp (ra : RegIdx) (op : Operand) (s : State) : Result :=
  withSource op s fun b => setFlags (compareFlags ((readReg ra s).toNat - b) s.flags) s

def execCmpLit (ra : RegIdx) (v : Half) (s : State) : Result := opCmp ra (.lit v) s

def execCmpReg (ra r1 : RegIdx) (s : State) : Result := opCmp ra (.reg r1) s

def execCmpRel (ra rb : RegIdx) (off : Half) (s : State) : Result := opCmp ra (.rel rb off) s

end Sys2Proof.Machine
end

