-- ==== Sys2Proof/Machine/HaltPrint.lean ====
section
/-! DEFINITION. `HLT` and `PRINT` (spec/45_halt_print.md R170 to R172). -/

namespace Sys2Proof.Machine

/-- `HLT`: `STATE <- Halted`, `CAUSE <- HALT_INSTRUCTION`, and `pc` keeps the address of the `HLT` word (R170). -/
def execHlt (s : State) : Result := .next (haltWith .haltInstruction s)

/-- `PRINT <op>`: emit the low 8 bits of the operand; the port never stalls (R171). -/
def opPrint (op : Operand) (s : State) : Result := withSource op s fun b => emit (lowByte b) s

def execPrintLit (v : Half) (s : State) : Result := opPrint (.lit v) s

def execPrintReg (rs : RegIdx) (s : State) : Result := opPrint (.reg rs) s

def execPrintRel (rb : RegIdx) (off : Half) (s : State) : Result := opPrint (.rel rb off) s

end Sys2Proof.Machine
end

