-- ==== Sys2Proof/Machine/Jump.lean ====
section
/-! DEFINITION. The jumps (spec/44_jumps.md R160 to R167). The condition is a set of compare codes, not a test of single
bits, so the code `0b11` satisfies no conditional jump (R160). -/

namespace Sys2Proof.Machine

/-- Jump exactly when the compare code is one of `codes`, and advance otherwise (R160, R161). -/
def jumpOnCode (codes : List (BitVec 2)) (t : Target) (s : State) : Result :=
  if compareCode s.flags ∈ codes then .next (jumpTo (targetAddress t s) s) else .next (advance s)

/-- `JMP <target>`: always, without looking at `FLAGS` (R162). -/
def opJmp (t : Target) (s : State) : Result := .next (jumpTo (targetAddress t s) s)

/-- `JMPL <target>` (R163). -/
def opJmpl (t : Target) (s : State) : Result := jumpOnCode [codeLess] t s

/-- `JMPG <target>` (R164). -/
def opJmpg (t : Target) (s : State) : Result := jumpOnCode [codeGreater] t s

/-- `JMPLE <target>` (R165). -/
def opJmple (t : Target) (s : State) : Result := jumpOnCode [codeLess, codeEqual] t s

/-- `JMPGE <target>` (R166). -/
def opJmpge (t : Target) (s : State) : Result := jumpOnCode [codeGreater, codeEqual] t s

def execJmpLit (v : Half) (s : State) : Result := opJmp (.lit v) s

def execJmpPcr (d : Half) (s : State) : Result := opJmp (.pcr d) s

def execJmplLit (v : Half) (s : State) : Result := opJmpl (.lit v) s

def execJmplPcr (d : Half) (s : State) : Result := opJmpl (.pcr d) s

def execJmpgLit (v : Half) (s : State) : Result := opJmpg (.lit v) s

def execJmpgPcr (d : Half) (s : State) : Result := opJmpg (.pcr d) s

def execJmpleLit (v : Half) (s : State) : Result := opJmple (.lit v) s

def execJmplePcr (d : Half) (s : State) : Result := opJmple (.pcr d) s

def execJmpgeLit (v : Half) (s : State) : Result := opJmpge (.lit v) s

def execJmpgePcr (d : Half) (s : State) : Result := opJmpge (.pcr d) s

end Sys2Proof.Machine
end

