-- ==== Sys2Proof/Machine/LoadStore.lean ====
section
/-! DEFINITION. `LDR` and `STR` (spec/41_load_store.md R120 to R122). -/

namespace Sys2Proof.Machine

/-- `LDR $rd, <op>`: `x[rd] <- val(opnd) mod 256` (R120). -/
def opLdr (rd : RegIdx) (op : Operand) (s : State) : Result :=
  withSource op s fun b => writeReg rd (lowByte b) s

/-- `STR $rs, <dest>`: the register's byte to memory or to a register (R121). -/
def opStr (rs : RegIdx) (dest : Operand) (s : State) : Result := storeTo dest (readReg rs s) s

def execLdrLit (rd : RegIdx) (v : Half) (s : State) : Result := opLdr rd (.lit v) s

def execLdrReg (rd r1 : RegIdx) (s : State) : Result := opLdr rd (.reg r1) s

def execLdrRel (rd rb : RegIdx) (off : Half) (s : State) : Result := opLdr rd (.rel rb off) s

def execStrLit (rs : RegIdx) (v : Half) (s : State) : Result := opStr rs (.lit v) s

def execStrReg (rs rt : RegIdx) (s : State) : Result := opStr rs (.reg rt) s

def execStrRel (rs rb : RegIdx) (off : Half) (s : State) : Result := opStr rs (.rel rb off) s

end Sys2Proof.Machine
end

