-- ==== Sys2Proof/Machine/Dispatch.lean ====
section
/-! DEFINITION. The dispatch of instructions to their meanings, one arm for each constructor. -/

namespace Sys2Proof.Machine

def exec (i : Instr) (s : State) : Host.Outcome State Fault Refusal :=
  match i with
  | .hlt => Sys2Proof.Machine.execHlt s
  | .ldrLit rd v => Sys2Proof.Machine.execLdrLit rd v s
  | .ldrReg rd r1 => Sys2Proof.Machine.execLdrReg rd r1 s
  | .ldrRel rd rb off => Sys2Proof.Machine.execLdrRel rd rb off s
  | .strLit rs v => Sys2Proof.Machine.execStrLit rs v s
  | .strReg rs rt => Sys2Proof.Machine.execStrReg rs rt s
  | .strRel rs rb off => Sys2Proof.Machine.execStrRel rs rb off s
  | .addLit rd v => Sys2Proof.Machine.execAddLit rd v s
  | .addReg rd r1 => Sys2Proof.Machine.execAddReg rd r1 s
  | .addRel rd rb off => Sys2Proof.Machine.execAddRel rd rb off s
  | .subLit rd v => Sys2Proof.Machine.execSubLit rd v s
  | .subReg rd r1 => Sys2Proof.Machine.execSubReg rd r1 s
  | .subRel rd rb off => Sys2Proof.Machine.execSubRel rd rb off s
  | .mulLit rd v => Sys2Proof.Machine.execMulLit rd v s
  | .mulReg rd r1 => Sys2Proof.Machine.execMulReg rd r1 s
  | .mulRel rd rb off => Sys2Proof.Machine.execMulRel rd rb off s
  | .divLit rd v => Sys2Proof.Machine.execDivLit rd v s
  | .divReg rd r1 => Sys2Proof.Machine.execDivReg rd r1 s
  | .divRel rd rb off => Sys2Proof.Machine.execDivRel rd rb off s
  | .xorLit rd v => Sys2Proof.Machine.execXorLit rd v s
  | .xorReg rd r1 => Sys2Proof.Machine.execXorReg rd r1 s
  | .xorRel rd rb off => Sys2Proof.Machine.execXorRel rd rb off s
  | .andLit rd v => Sys2Proof.Machine.execAndLit rd v s
  | .andReg rd r1 => Sys2Proof.Machine.execAndReg rd r1 s
  | .andRel rd rb off => Sys2Proof.Machine.execAndRel rd rb off s
  | .orLit rd v => Sys2Proof.Machine.execOrLit rd v s
  | .orReg rd r1 => Sys2Proof.Machine.execOrReg rd r1 s
  | .orRel rd rb off => Sys2Proof.Machine.execOrRel rd rb off s
  | .notLit rd v => Sys2Proof.Machine.execNotLit rd v s
  | .notReg rd r1 => Sys2Proof.Machine.execNotReg rd r1 s
  | .notRel rd rb off => Sys2Proof.Machine.execNotRel rd rb off s
  | .cmpLit ra v => Sys2Proof.Machine.execCmpLit ra v s
  | .cmpReg ra r1 => Sys2Proof.Machine.execCmpReg ra r1 s
  | .cmpRel ra rb off => Sys2Proof.Machine.execCmpRel ra rb off s
  | .jmpLit v => Sys2Proof.Machine.execJmpLit v s
  | .jmpPcr d => Sys2Proof.Machine.execJmpPcr d s
  | .jmplLit v => Sys2Proof.Machine.execJmplLit v s
  | .jmplPcr d => Sys2Proof.Machine.execJmplPcr d s
  | .jmpgLit v => Sys2Proof.Machine.execJmpgLit v s
  | .jmpgPcr d => Sys2Proof.Machine.execJmpgPcr d s
  | .jmpleLit v => Sys2Proof.Machine.execJmpleLit v s
  | .jmplePcr d => Sys2Proof.Machine.execJmplePcr d s
  | .jmpgeLit v => Sys2Proof.Machine.execJmpgeLit v s
  | .jmpgePcr d => Sys2Proof.Machine.execJmpgePcr d s
  | .printLit v => Sys2Proof.Machine.execPrintLit v s
  | .printReg rs => Sys2Proof.Machine.execPrintReg rs s
  | .printRel rb off => Sys2Proof.Machine.execPrintRel rb off s

end Sys2Proof.Machine
end

