-- ==== Sys2Proof/Machine/Fetch.lean ====
section
/-! DEFINITION. Fetching and decoding the instruction at `pc`, with the checks in the order of spec/40_step_and_operands.md
R100 and R102. -/

namespace Sys2Proof.Machine

/-- Whether the four bytes at `pc` all exist: `pc <= 4092` (R29, R186). -/
def fetchInRange (s : State) : Bool := decide (s.pc.toNat + Config.instrBytes ≤ Config.memSize)

/-- The instruction word at `pc`, from the same bytes that stores write (R53, R64). -/
def fetchWord (s : State) : Word := memReadWord s.mem s.pc.toNat

/-- The cause a word that is no instruction faults with (R85, R188, R189). -/
def badWordCause (b : BadWord) : Cause :=
  match b with
  | .unknownOpcode => .unknownOpcode
  | .illegalMode => .illegalMode

/-- Fetch and decode: the instruction at `pc`, or the cause of the first check that fails (R100, R102, R190). -/
def fetch (s : State) : Except Cause Instr :=
  if fetchInRange s then
    match decodeWord (fetchWord s) with
    | .ok i => .ok i
    | .error b => .error (badWordCause b)
  else .error .fetchOutOfRange

end Sys2Proof.Machine
end

