-- ==== Sys2Proof/Machine/HostOps.lean ====
section
/-! DEFINITION. What the host does to the machine between steps (spec/70_reset_and_hazards.md R210): load and reset. Its
other two operations are `step` and observing the state, which is plain data (R215). -/

namespace Sys2Proof.Machine

/-- Reset: every component but `MEM` takes its reset value (R212, R40). It is the only way out of `Halted` (R192). -/
def hostReset (s : State) : State := { State.reset with mem := s.mem }

/-- Whether an image of `len` bytes may be loaded (R211): a whole number of words that fits above `LOAD_BASE`. -/
def imageAccepted (len : Nat) : Bool :=
  decide (len % Config.instrBytes = 0) && decide (Config.loadBase + len ≤ Config.memSize)

/-- Load: memory becomes the image at `LOAD_BASE` and `Config.fillByte` elsewhere, and reset follows; an image that does
not meet the precondition is refused and no machine results (R211, R213). The state before the load does not matter. -/
def hostLoad (image : List Byte) : Option State :=
  if imageAccepted image.length then
    some (hostReset { State.reset with mem := memWriteAll [] Config.loadBase image })
  else none

end Sys2Proof.Machine
end

