-- ==== Sys2Proof/Machine/Step.lean ====
section
/-! DEFINITION. The step (spec/40_step_and_operands.md R100, R101), and the state in which the very next step runs a
given instruction. -/

namespace Sys2Proof.Machine

/-- One step: nothing in `Halted`; otherwise fetch, decode and execute, or take the fault of the first check that fails
(R100). The sequential advance is part of each meaning. -/
def step (s : State) : Host.Outcome State Fault Refusal :=
  match s.run with
  | .halted => stayHalted s
  | .running =>
    match fetch s with
    | .error c => takeFault c s
    | .ok i => exec i s

/-- `s` made ready to fetch: a state that would not fetch at all (`Halted`, or `pc > 4092`) is put back to `Running` with
`pc` at `LOAD_BASE`; any other is left alone (log entry 5). -/
def readyToFetch (s : State) : State :=
  if s.run = .running ∧ fetchInRange s = true then s
  else { s with run := .running, cause := .none, pc := BitVec.ofNat 16 Config.loadBase }

/-- `s` with the instruction of a table row's word stored where the next step fetches (R51, R53). -/
def State.withFetchWord (s : State) (nbits w : Nat) : State :=
  let r := readyToFetch s
  { r with mem := memWriteAll r.mem r.pc.toNat (bytesOfWord (tableWord nbits w)) }

end Sys2Proof.Machine
end

