-- ==== Sys2Proof/Safety.lean ====
section
/-! DEFINITION. The terms in which claims speak of a run: the invariant of the machine, and how a run ends
(spec/10_state.md R30, R36; spec/70_reset_and_hazards.md R216). -/

namespace Sys2Proof.Machine

/-- The bits of `FLAGS` that do not exist are 0 (R30). -/
abbrev State.flagsLegal (s : State) : Prop := s.flags &&& ~~~Config.flagsUsed = 0

/-- "`STATE = Running` exactly when `CAUSE = 0`" (R36). -/
abbrev State.causeLegal (s : State) : Prop := s.run = .running ↔ s.cause = .none

/-- What holds of the state at reset and is kept by every step. -/
abbrev State.Inv (s : State) : Prop := s.mem.wf = true ∧ s.flagsLegal ∧ s.causeLegal

/-- A run is over (R216). -/
abbrev State.ended (s : State) : Prop := s.run = .halted

/-- The causes that are faults, 2 to 5 (R181, R216). -/
def Cause.isFault (c : Cause) : Bool :=
  match c with
  | .none => false
  | .haltInstruction => false
  | .unknownOpcode => true
  | .illegalMode => true
  | .fetchOutOfRange => true
  | .dataOutOfRange => true

/-- The run ended by executing `HLT` (R216). -/
abbrev State.endedNormally (s : State) : Prop := s.ended ∧ s.cause = .haltInstruction

/-- The run ended by a fault (R216). -/
abbrev State.endedByFault (s : State) : Prop := s.ended ∧ s.cause.isFault = true

/-- The states a run of any number of steps from `s` reaches. -/
inductive Reaches (s : State) : State → Prop where
  | refl : Reaches s s
  | step {t u : State} : Reaches s t → step t = .next u → Reaches s u

end Sys2Proof.Machine
end

