-- ==== Sys2Proof/Certificates/Slice0/Obligations.lean ====
section
/-! DEFINITION. The statements for the provers, about the rules of spec/ file by file, and the vocabulary they are written
in. The vocabulary is written from the rules in plain arithmetic, beside the model and not with its flag and result
functions, so that a statement can disagree with the model. Many rules carry a decision of the spec (D<n> of
spec/92_eei_decisions.md), which 00_scope.md section 1 makes normative; a docstring names it where it matters. -/

namespace Sys2Proof.Claims

open Sys2Proof.Machine

/-- The byte `v mod 256`, the remainder in 0..255 also of a negative `v` (R7). -/
def byteOf (v : Int) : Byte := BitVec.ofNat 8 (v % 256).toNat

/-- The state after a fault (R184): `STATE <- Halted`, `CAUSE <- c`, and nothing else. -/
def faulted (c : Cause) (s : State) : State := { s with run := .halted, cause := c }

/-- `pc` after the sequential advance (R28). -/
def nextPc (s : State) : Nat := (s.pc.toNat + 4) % 65536

/-- `t` is `s` after the cell or pseudo-register `rd` was written with `v mod 256` (R25), the bits `raised` were then set in
`FLAGS` (R33), and `pc` advanced (R28); nothing else differs. -/
def WroteRegister (s : State) (rd : RegIdx) (v : Int) (raised : Byte) (t : State) : Prop :=
  (∀ (k : Nat) (hk : k < 14), t.regs[k] = if k = rd.toNat then byteOf v else s.regs[k]) ∧
    t.flags = (if rd.toNat = 14 then byteOf v &&& 0x1F else s.flags) ||| raised ∧
    t.pc.toNat = nextPc s ∧ t.run = s.run ∧ t.cause = s.cause ∧ t.mem = s.mem ∧ t.out = s.out

/-- `t` is `s` after `FLAGS` changed from the value in `s` in a way `f` allows and `pc` advanced; nothing else differs. -/
def ChangedFlags (s : State) (f : Byte → Byte → Prop) (t : State) : Prop :=
  t.regs = s.regs ∧ f s.flags t.flags ∧
    t.pc.toNat = nextPc s ∧ t.run = s.run ∧ t.cause = s.cause ∧ t.mem = s.mem ∧ t.out = s.out

/-- `t` is `s` after the byte `v` was stored at address `a` (R54) and `pc` advanced; nothing else differs. That the stored
byte reads back is said of memories in canonical form, the only ones a machine has (`StepKeepsTheInvariant`). -/
def StoredByte (s : State) (a : Nat) (v : Byte) (t : State) : Prop :=
  (s.mem.wf = true → memRead t.mem a = v) ∧ (∀ b, b ≠ a → memRead t.mem b = memRead s.mem b) ∧
    t.regs = s.regs ∧ t.flags = s.flags ∧ t.pc.toNat = nextPc s ∧ t.run = s.run ∧ t.cause = s.cause ∧ t.out = s.out

/-- The words of the three forms of a class B instruction, as numbers (R78, R79, R80). -/
def ClassBWords (opc : Nat) (lit : RegIdx → Half → Instr) (reg : RegIdx → RegIdx → Instr)
    (rel : RegIdx → RegIdx → Half → Instr) : Prop :=
  (∀ r0 v, (encode (lit r0 v)).toNat = opc * 2 ^ 27 + 0 * 2 ^ 24 + r0.toNat * 2 ^ 20 + v.toNat * 2 ^ 4) ∧
    (∀ r0 r1, (encode (reg r0 r1)).toNat = opc * 2 ^ 27 + 1 * 2 ^ 24 + r0.toNat * 2 ^ 20 + r1.toNat * 2 ^ 16) ∧
    ∀ r0 rb off,
      (encode (rel r0 rb off)).toNat = opc * 2 ^ 27 + 2 * 2 ^ 24 + r0.toNat * 2 ^ 20 + rb.toNat * 2 ^ 16 + off.toNat

/-- The rule of a class B instruction that reads its operand: its encoding; for each form, with the operand value `b` of
R107, it completes with `effect s r0 b`; and a register-relative operand whose address is above 4095 faults with nothing
else changed (R106). -/
def ClassBRule (opc : Nat) (lit : RegIdx → Half → Instr) (reg : RegIdx → RegIdx → Instr)
    (rel : RegIdx → RegIdx → Half → Instr) (effect : State → RegIdx → Nat → State → Prop) : Prop :=
  ClassBWords opc lit reg rel ∧
    ∀ (s : State) (r0 : RegIdx),
      (∀ v, ∃ t, exec (lit r0 v) s = .next t ∧ effect s r0 v.toNat t) ∧
        (∀ r1, ∃ t, exec (reg r0 r1) s = .next t ∧ effect s r0 (readReg r1 s).toNat t) ∧
        ∀ rb off,
          (off.toNat + (readReg rb s).toNat ≤ 4095 →
              ∃ t, exec (rel r0 rb off) s = .next t ∧
                effect s r0 (memRead s.mem (off.toNat + (readReg rb s).toNat)).toNat t) ∧
            (4095 < off.toNat + (readReg rb s).toNat → exec (rel r0 rb off) s = .next (faulted .dataOutOfRange s))

/-- The words of the two forms of a jump, as numbers (R75). -/
def JumpWords (opc : Nat) (lit pcr : Half → Instr) : Prop :=
  (∀ v, (encode (lit v)).toNat = opc * 2 ^ 27 + 0 * 2 ^ 24 + v.toNat * 2 ^ 8) ∧
    ∀ d, (encode (pcr d)).toNat = opc * 2 ^ 27 + 3 * 2 ^ 24 + d.toNat * 2 ^ 8

/-- The rule of a jump that is taken on the compare codes `taken`: its encoding, and that it completes with `pc` at its
target, the literal or the jump's own address plus the displacement modulo 65536, when the code is one of them, and at the
next word otherwise; nothing else differs (R161). -/
def JumpRule (opc : Nat) (lit pcr : Half → Instr) (taken : Nat → Prop) : Prop :=
  JumpWords opc lit pcr ∧
    ∀ s : State,
      (∀ v, ∃ p : Half, exec (lit v) s = .next { s with pc := p } ∧
        (taken (s.flags.toNat % 4) → p.toNat = v.toNat) ∧ (¬taken (s.flags.toNat % 4) → p.toNat = nextPc s)) ∧
        ∀ d, ∃ p : Half, exec (pcr d) s = .next { s with pc := p } ∧
          (taken (s.flags.toNat % 4) → p.toNat = (s.pc.toNat + d.toNat) % 65536) ∧
            (¬taken (s.flags.toNat % 4) → p.toNat = nextPc s)

/-- The register an instruction writes back to, if any: operand 0 of `LDR` and the ALU, the register destination of
`STR`. -/
def destination (i : Instr) : Option RegIdx :=
  match i with
  | .ldrLit rd _ | .ldrReg rd _ | .ldrRel rd _ _ => some rd
  | .strReg _ rt => some rt
  | .addLit rd _ | .addReg rd _ | .addRel rd _ _ => some rd
  | .subLit rd _ | .subReg rd _ | .subRel rd _ _ => some rd
  | .mulLit rd _ | .mulReg rd _ | .mulRel rd _ _ => some rd
  | .divLit rd _ | .divReg rd _ | .divRel rd _ _ => some rd
  | .xorLit rd _ | .xorReg rd _ | .xorRel rd _ _ => some rd
  | .andLit rd _ | .andReg rd _ | .andRel rd _ _ => some rd
  | .orLit rd _ | .orReg rd _ | .orRel rd _ _ => some rd
  | .notLit rd _ | .notReg rd _ | .notRel rd _ _ => some rd
  | _ => none

/-- The data address an instruction uses, if any: `OFF + x[rb]` of a register-relative operand, without wrap, and the
literal of `STR` (R106, R121). -/
def dataAddress (i : Instr) (s : State) : Option Nat :=
  match i with
  | .strLit _ v => some v.toNat
  | .ldrRel _ rb off | .strRel _ rb off | .addRel _ rb off | .subRel _ rb off | .mulRel _ rb off | .divRel _ rb off
  | .xorRel _ rb off | .andRel _ rb off | .orRel _ rb off | .notRel _ rb off | .cmpRel _ rb off | .printRel rb off =>
    some (effectiveAddress rb off s)
  | _ => none

/-- The memory address an instruction stores to, if any, by the function its meaning uses. -/
def storesTo (i : Instr) (s : State) : Option Nat :=
  match i with
  | .strLit _ v => storeAddress (.lit v) s
  | .strReg _ rt => storeAddress (.reg rt) s
  | .strRel _ rb off => storeAddress (.rel rb off) s
  | _ => none

/-- `ADD`, `SUB`, `MUL`, `DIV`: the instructions that may set a flag bit (R31). -/
def isArithmetic (i : Instr) : Bool :=
  match i with
  | .addLit _ _ | .addReg _ _ | .addRel _ _ _ | .subLit _ _ | .subReg _ _ | .subRel _ _ _ => true
  | .mulLit _ _ | .mulReg _ _ | .mulRel _ _ _ | .divLit _ _ | .divReg _ _ | .divRel _ _ _ => true
  | _ => false

/-- `CMP` in any form. -/
def isCompare (i : Instr) : Bool :=
  match i with
  | .cmpLit _ _ | .cmpReg _ _ | .cmpRel _ _ _ => true
  | _ => false

/-- `PRINT` in any form. -/
def isPrint (i : Instr) : Bool :=
  match i with
  | .printLit _ | .printReg _ | .printRel _ _ => true
  | _ => false

/-- The target of a jump that the compare code takes, and none of any other instruction or of a jump that falls through
(R160, R161). -/
def takenTarget (i : Instr) (s : State) : Option Nat :=
  let code := s.flags.toNat % 4
  match i with
  | .jmpLit v => some v.toNat
  | .jmpPcr d => some ((s.pc.toNat + d.toNat) % 65536)
  | .jmplLit v => if code = 2 then some v.toNat else none
  | .jmplPcr d => if code = 2 then some ((s.pc.toNat + d.toNat) % 65536) else none
  | .jmpgLit v => if code = 0 then some v.toNat else none
  | .jmpgPcr d => if code = 0 then some ((s.pc.toNat + d.toNat) % 65536) else none
  | .jmpleLit v => if code = 2 ∨ code = 1 then some v.toNat else none
  | .jmplePcr d => if code = 2 ∨ code = 1 then some ((s.pc.toNat + d.toNat) % 65536) else none
  | .jmpgeLit v => if code = 0 ∨ code = 1 then some v.toNat else none
  | .jmpgePcr d => if code = 0 ∨ code = 1 then some ((s.pc.toNat + d.toNat) % 65536) else none
  | _ => none

/-- The instruction whose four bytes stand at `pc`, if they decode (R51, R100). -/
def FetchedIs (s : State) (i : Instr) : Prop :=
  decode [memRead s.mem s.pc.toNat, memRead s.mem (s.pc.toNat + 1), memRead s.mem (s.pc.toNat + 2),
    memRead s.mem (s.pc.toNat + 3)] = .ok i

/-- The word whose four bytes stand at `pc`, as a number: big-endian (R51, R53). -/
def fetchedWord (s : State) : Nat :=
  (memRead s.mem s.pc.toNat).toNat * 2 ^ 24 + (memRead s.mem (s.pc.toNat + 1)).toNat * 2 ^ 16 +
    (memRead s.mem (s.pc.toNat + 2)).toNat * 2 ^ 8 + (memRead s.mem (s.pc.toNat + 3)).toNat

/-- The tags legal for a defined opcode 1..17 (R82). -/
def tagLegal (opc tag : Nat) : Prop :=
  (opc ≤ 11 ∧ tag ≤ 2) ∨ (12 ≤ opc ∧ opc ≤ 16 ∧ (tag = 0 ∨ tag = 3)) ∨ (opc = 17 ∧ tag ≤ 2)

/-- The bits of an instruction's word that the decoder looks at: all but those the formats of R74 to R80 call ignored. -/
def usedBits (i : Instr) : Word :=
  match i with
  | .hlt => 0xF8000000
  | .ldrLit _ _ | .strLit _ _ | .addLit _ _ | .subLit _ _ | .mulLit _ _ | .divLit _ _ | .xorLit _ _ | .andLit _ _
  | .orLit _ _ | .notLit _ _ | .cmpLit _ _ => 0xFFFFFFF0
  | .ldrReg _ _ | .strReg _ _ | .addReg _ _ | .subReg _ _ | .mulReg _ _ | .divReg _ _ | .xorReg _ _ | .andReg _ _
  | .orReg _ _ | .notReg _ _ | .cmpReg _ _ => 0xFFFF0000
  | .ldrRel _ _ _ | .strRel _ _ _ | .addRel _ _ _ | .subRel _ _ _ | .mulRel _ _ _ | .divRel _ _ _ | .xorRel _ _ _
  | .andRel _ _ _ | .orRel _ _ _ | .notRel _ _ _ | .cmpRel _ _ _ => 0xFFFFFFFF
  | .jmpLit _ | .jmplLit _ | .jmpgLit _ | .jmpleLit _ | .jmpgeLit _ | .printLit _ => 0xFFFFFF00
  | .jmpPcr _ | .jmplPcr _ | .jmpgPcr _ | .jmplePcr _ | .jmpgePcr _ => 0xFFFFFF00
  | .printReg _ => 0xFFF00000
  | .printRel _ _ => 0xFFFFFFF0

end Sys2Proof.Claims

open Sys2Proof Sys2Proof.Machine Sys2Proof.Claims

/-- R24: a register index reads its cell, `FLAGS` or 0, and right after reset every index reads 0. -/
def Obligations.RegisterReadsFollowTheView : Prop :=
  (∀ (i : RegIdx) (s : State),
      (∀ h : i.toNat < 14, readReg i s = s.regs[i.toNat]) ∧ (i.toNat = 14 → readReg i s = s.flags) ∧
        (i.toNat = 15 → readReg i s = 0)) ∧
    ∀ i : RegIdx, readReg i State.reset = 0

/-- R25: a register write changes one cell, or the used bits of `FLAGS`, or nothing, and no other component. -/
def Obligations.RegisterWritesFollowTheView : Prop :=
  ∀ (i : RegIdx) (n : Nat) (s t : State), t = writeReg i (BitVec.ofNat 8 n) s →
    (∀ (k : Nat) (hk : k < 14), t.regs[k] = if k = i.toNat then BitVec.ofNat 8 (n % 256) else s.regs[k]) ∧
      t.flags = (if i.toNat = 14 then BitVec.ofNat 8 (n % 256) &&& 0x1F else s.flags) ∧
      t.pc = s.pc ∧ t.run = s.run ∧ t.cause = s.cause ∧ t.mem = s.mem ∧ t.out = s.out

/-- R40 and R212 (the spec's decisions D24, D27, D28): the host's reset sets every component but memory to its reset value
and leaves memory, and the machine right after reset has those values. The memory of `State.reset` is the model's choice
and is spoken of in `ResetStateIsTheLoadOfTheEmptyImage` only. -/
def Obligations.ResetSetsEveryComponentButMemory : Prop :=
  ∀ s t : State, (t = hostReset s ∨ t = State.reset) →
    (∀ (k : Nat) (hk : k < 14), t.regs[k] = 0) ∧ t.flags = 0 ∧ t.pc.toNat = 0x200 ∧ t.run = .running ∧
      t.cause = .none ∧ t.out = [] ∧ (t = hostReset s → t.mem = s.mem)

/-- The model's choice of log entry 3: the state right after reset is what loading the empty image gives (R211 says what
that load does). -/
def Obligations.ResetStateIsTheLoadOfTheEmptyImage : Prop := hostLoad [] = some State.reset

/-- R211 (the spec's decisions D30, D31): an accepted image stands at `LOAD_BASE` with zero everywhere else and the other
components reset; any other image is refused; after the load of the empty image the first step executes `HLT` at 0x200. -/
def Obligations.LoadPlacesTheImageAndResets : Prop :=
  (∃ t, hostLoad [] = some t ∧ t.pc.toNat = 0x200 ∧ FetchedIs t .hlt ∧ step t = exec .hlt t) ∧
    ∀ image : List Byte,
      (image.length % 4 = 0 ∧ 0x200 + image.length ≤ 4096 →
          ∃ t, hostLoad image = some t ∧
            (∀ (k : Nat) (hk : k < image.length), memRead t.mem (0x200 + k) = image[k]) ∧
            (∀ a, a < 0x200 ∨ 0x200 + image.length ≤ a → memRead t.mem a = 0) ∧
            t = { State.reset with mem := t.mem }) ∧
        (¬(image.length % 4 = 0 ∧ 0x200 + image.length ≤ 4096) → hostLoad image = none)

/-- R95 with the round trip of R94 and R220: a program of at most 896 instructions, encoded and loaded, has its `k`-th
instruction decode from the four bytes at `LOAD_BASE + 4k`, for every `k`. -/
def Obligations.LoadedProgramDecodesInOrder : Prop :=
  ∀ program : List Instr, program.length ≤ 896 →
    ∃ t, hostLoad (program.flatMap encodeBytes) = some t ∧
      ∀ (k : Nat) (hk : k < program.length),
        decode [memRead t.mem (0x200 + 4 * k), memRead t.mem (0x200 + 4 * k + 1), memRead t.mem (0x200 + 4 * k + 2),
          memRead t.mem (0x200 + 4 * k + 3)] = .ok program[k]

/-- R120 (the spec's decisions D13, D37). -/
def Obligations.LdrLoadsTheLowByteOfItsOperand : Prop :=
  ClassBRule 1 .ldrLit .ldrReg .ldrRel fun s rd b t => WroteRegister s rd b 0 t

/-- R121 (the spec's decisions D7, D37): the store in its three forms. -/
def Obligations.StrStoresTheRegisterByte : Prop :=
  ClassBWords 2 .strLit .strReg .strRel ∧
    ∀ (s : State) (rs : RegIdx),
      (∀ v : Half,
          (v.toNat ≤ 4095 → ∃ t, exec (.strLit rs v) s = .next t ∧ StoredByte s v.toNat (readReg rs s) t) ∧
            (4095 < v.toNat → exec (.strLit rs v) s = .next (faulted .dataOutOfRange s))) ∧
        (∀ rt, ∃ t, exec (.strReg rs rt) s = .next t ∧ WroteRegister s rt (readReg rs s).toNat 0 t) ∧
        ∀ rb off,
          (off.toNat + (readReg rb s).toNat ≤ 4095 →
              ∃ t, exec (.strRel rs rb off) s = .next t ∧
                StoredByte s (off.toNat + (readReg rb s).toNat) (readReg rs s) t) ∧
            (4095 < off.toNat + (readReg rb s).toNat → exec (.strRel rs rb off) s = .next (faulted .dataOutOfRange s))

/-- R131 (the spec's decision D15). -/
def Obligations.AddStoresTheSumAndRaisesOverflow : Prop :=
  ClassBRule 3 .addLit .addReg .addRel fun s rd b t =>
    WroteRegister s rd ((readReg rd s).toNat + b) (if (readReg rd s).toNat + b > 255 then 0x08 else 0) t

/-- R132 (the spec's decision D15). -/
def Obligations.SubStoresTheDifferenceAndRaisesUnderflow : Prop :=
  ClassBRule 4 .subLit .subReg .subRel fun s rd b t =>
    WroteRegister s rd (((readReg rd s).toNat : Int) - b) (if (readReg rd s).toNat < b then 0x10 else 0) t

/-- R133 (the spec's decision D15). -/
def Obligations.MulStoresTheLowProductAndRaisesOverflow : Prop :=
  ClassBRule 5 .mulLit .mulReg .mulRel fun s rd b t =>
    WroteRegister s rd ((readReg rd s).toNat * b) (if (readReg rd s).toNat * b > 255 then 0x08 else 0) t

/-- R134 (the spec's decision D15): the quotient, or for a zero divisor the flag alone. -/
def Obligations.DivStoresTheQuotientOrRaisesDivideByZero : Prop :=
  ClassBRule 6 .divLit .divReg .divRel fun s rd b t =>
    (b = 0 → ChangedFlags s (fun f g => g = f ||| 0x04) t) ∧
      (b ≠ 0 → ∃ q r : Nat, (readReg rd s).toNat = q * b + r ∧ r < b ∧ WroteRegister s rd q 0 t)

/-- R135 (the spec's decisions D13, D15). -/
def Obligations.XorStoresTheExclusiveOr : Prop :=
  ClassBRule 7 .xorLit .xorReg .xorRel fun s rd b t =>
    WroteRegister s rd ((readReg rd s).toNat ^^^ (b % 256) : Nat) 0 t

/-- R136 (the spec's decisions D13, D15). -/
def Obligations.AndStoresTheConjunction : Prop :=
  ClassBRule 8 .andLit .andReg .andRel fun s rd b t =>
    WroteRegister s rd ((readReg rd s).toNat &&& (b % 256) : Nat) 0 t

/-- R137 (the spec's decisions D13, D15). -/
def Obligations.OrStoresTheDisjunction : Prop :=
  ClassBRule 9 .orLit .orReg .orRel fun s rd b t =>
    WroteRegister s rd ((readReg rd s).toNat ||| (b % 256) : Nat) 0 t

/-- R138 (the spec's decision D8): `255 - b`, whatever the target held. -/
def Obligations.NotStoresTheComplementOfItsOperand : Prop :=
  ClassBRule 10 .notLit .notReg .notRel fun s rd b t => WroteRegister s rd (255 - (b % 256 : Nat)) 0 t

/-- R150 (the spec's decision D14): `E` and `L` from the comparison of two unsigned values, the other flag bits and every
register unchanged. -/
def Obligations.CmpSetsTheCompareCode : Prop :=
  ClassBRule 11 .cmpLit .cmpReg .cmpRel fun s ra b t =>
    ChangedFlags s
      (fun f g => g.toNat / 4 = f.toNat / 4 ∧
        ((readReg ra s).toNat = b → g.toNat % 4 = 1) ∧ ((readReg ra s).toNat < b → g.toNat % 4 = 2) ∧
        (b < (readReg ra s).toNat → g.toNat % 4 = 0)) t

/-- R151: the document's own table of compare outcomes, for the word `0x58100050`. -/
def Obligations.CompareOutcomesOfTheDocument : Prop :=
  decodeWord 0x58100050 = .ok (.cmpLit 1 5) ∧
    ∀ s : State, ∃ t, exec (.cmpLit 1 5) s = .next t ∧
      (s.regs[1] = 5 → t.flags.toNat % 4 = 1) ∧ (s.regs[1] = 3 → t.flags.toNat % 4 = 2) ∧
      (s.regs[1] = 9 → t.flags.toNat % 4 = 0)

/-- R162: always taken. -/
def Obligations.JmpAlwaysJumps : Prop := JumpRule 12 .jmpLit .jmpPcr fun _ => True

/-- R163: taken on the code `0b10` alone. -/
def Obligations.JmplJumpsOnLess : Prop := JumpRule 13 .jmplLit .jmplPcr fun code => code = 0b10

/-- R164: taken on the code `0b00` alone. -/
def Obligations.JmpgJumpsOnGreater : Prop := JumpRule 14 .jmpgLit .jmpgPcr fun code => code = 0b00

/-- R165 (the spec's decision D16): taken on `0b10` and `0b01`, and not on `0b11`. -/
def Obligations.JmpleJumpsOnLessOrEqual : Prop :=
  JumpRule 15 .jmpleLit .jmplePcr fun code => code = 0b10 ∨ code = 0b01

/-- R166 (the spec's decision D16): taken on `0b00` and `0b01`, and not on `0b11`. -/
def Obligations.JmpgeJumpsOnGreaterOrEqual : Prop :=
  JumpRule 16 .jmpgeLit .jmpgePcr fun code => code = 0b00 ∨ code = 0b01

/-- R170 (the spec's decisions D6, D25): every word below 2^27 is `HLT`, it completes by halting with `CAUSE` 1 and
leaves everything else, `pc` included, and after it every further step changes nothing. -/
def Obligations.HltHaltsAndKeepsThePc : Prop :=
  (∀ w : Word, w.toNat < 2 ^ 27 → decodeWord w = .ok .hlt) ∧ encode .hlt = 0 ∧
    ∀ s : State, ∃ t, exec .hlt s = .next t ∧ t = { s with run := .halted, cause := .haltInstruction } ∧
      t.cause.code = 1 ∧ step t = .next t

/-- R171 (the spec's decisions D9, D27): the low byte of the operand is appended to `OUT`, in every form; nothing else but
`pc` changes; an address above 4095 faults and emits nothing. -/
def Obligations.PrintAppendsTheLowByte : Prop :=
  (∀ v, (encode (.printLit v)).toNat = 17 * 2 ^ 27 + 0 * 2 ^ 24 + v.toNat * 2 ^ 8) ∧
    (∀ rs, (encode (.printReg rs)).toNat = 17 * 2 ^ 27 + 1 * 2 ^ 24 + rs.toNat * 2 ^ 20) ∧
    (∀ rb off, (encode (.printRel rb off)).toNat = 17 * 2 ^ 27 + 2 * 2 ^ 24 + rb.toNat * 2 ^ 20 + off.toNat * 2 ^ 4) ∧
    ∀ s : State, ∃ p : Half, p.toNat = nextPc s ∧
      (∀ v : Half, exec (.printLit v) s = .next { s with pc := p, out := s.out ++ [byteOf v.toNat] }) ∧
      (∀ rs, exec (.printReg rs) s = .next { s with pc := p, out := s.out ++ [readReg rs s] }) ∧
      ∀ rb off,
        (off.toNat + (readReg rb s).toNat ≤ 4095 →
            exec (.printRel rb off) s =
              .next { s with pc := p, out := s.out ++ [memRead s.mem (off.toNat + (readReg rb s).toNat)] }) ∧
          (4095 < off.toNat + (readReg rb s).toNat → exec (.printRel rb off) s = .next (faulted .dataOutOfRange s))

/-- R100: when the bytes at `pc` decode to a well-formed instruction, the step of a running machine is that instruction's
meaning in that very state. A meaning holds the sequential advance, so the step adds nothing around it. -/
def Obligations.StepRunsTheDecodedInstruction : Prop :=
  ∀ (s : State) (i : Instr), s.run = .running → s.pc.toNat ≤ 4092 → FetchedIs s i → i.WellFormed → step s = exec i s

/-- R188 and R189 (the spec's decisions D22, D23), in the order of R102 and R190: fetch range first, then the opcode, then the
tag; an undefined opcode and an unaccepted tag halt the machine with their causes and no operand has an effect; what passes
all three checks is executed. -/
def Obligations.ChecksComeInTheirOrder : Prop :=
  ∀ s : State, s.run = .running →
    (4092 < s.pc.toNat → step s = .next (faulted .fetchOutOfRange s)) ∧
      (s.pc.toNat ≤ 4092 →
        (18 ≤ fetchedWord s / 2 ^ 27 → step s = .next (faulted .unknownOpcode s)) ∧
          (1 ≤ fetchedWord s / 2 ^ 27 ∧ fetchedWord s / 2 ^ 27 ≤ 17 ∧
              ¬tagLegal (fetchedWord s / 2 ^ 27) (fetchedWord s / 2 ^ 24 % 8) →
            step s = .next (faulted .illegalMode s)) ∧
          (fetchedWord s / 2 ^ 27 = 0 ∨
              fetchedWord s / 2 ^ 27 ≤ 17 ∧ tagLegal (fetchedWord s / 2 ^ 27) (fetchedWord s / 2 ^ 24 % 8) →
            ∃ i, FetchedIs s i ∧ step s = exec i s))

/-- R85 (the spec's decisions D22, D23): every word is legal, of unknown opcode, or of illegal mode, by its header
alone. -/
def Obligations.EveryWordHasOneClass : Prop :=
  ∀ w : Word,
    ((∃ i, decodeWord w = .ok i) ↔
        w.toNat / 2 ^ 27 = 0 ∨ w.toNat / 2 ^ 27 ≤ 17 ∧ tagLegal (w.toNat / 2 ^ 27) (w.toNat / 2 ^ 24 % 8)) ∧
      (decodeWord w = .error .unknownOpcode ↔ 18 ≤ w.toNat / 2 ^ 27) ∧
      (decodeWord w = .error .illegalMode ↔
        1 ≤ w.toNat / 2 ^ 27 ∧ w.toNat / 2 ^ 27 ≤ 17 ∧ ¬tagLegal (w.toNat / 2 ^ 27) (w.toNat / 2 ^ 24 % 8))

/-- R94, R220: decoding the bytes of any encoded instruction gives it back, with every operand at every value. -/
def Obligations.DecodeUndoesEncode : Prop := ∀ i : Instr, i.WellFormed → decode (encodeBytes i) = .ok i

/-- R84 (the spec's decision D10): the encoder writes 0 in the ignored bits, and a word that differs from a legal word only
there decodes to the same instruction; every word with opcode field 0 is `HLT`. -/
def Obligations.IgnoredBitsAreNotExamined : Prop :=
  (∀ (w : Word) (i : Instr), decodeWord w = .ok i →
      encode i = w &&& usedBits i ∧ ∀ w' : Word, w' &&& usedBits i = w &&& usedBits i → decodeWord w' = .ok i) ∧
    ∀ w : Word, w.toNat / 2 ^ 27 = 0 → decodeWord w = .ok .hlt

/-- Words of 95_test_vectors.md section 2 and of the rules' own examples, one or more of every family, decode to what they
stand for. -/
def Obligations.ExampleWordsDecode : Prop :=
  decodeWord 0b00000_111_1111_1111_1111_1111_1111_1111 = .ok .hlt ∧
    decodeWord 0b00001_000_0001_0000000000001010_0000 = .ok (.ldrLit 1 10) ∧
    decodeWord 0b00001_010_0011_1111_0000000100000000 = .ok (.ldrRel 3 15 256) ∧
    decodeWord 0b00010_001_0001_0010_0000000000000000 = .ok (.strReg 1 2) ∧
    decodeWord 0b00011_000_0001_0000000000000101_0000 = .ok (.addLit 1 5) ∧
    decodeWord 0b01010_001_0001_0001_0000000000000000 = .ok (.notReg 1 1) ∧
    decodeWord 0b01011_010_1111_1111_1111111111111111 = .ok (.cmpRel 15 15 65535) ∧
    decodeWord 0b01110_011_1111111111110100_00000000 = .ok (.jmpgPcr 0xFFF4) ∧
    decodeWord 0b10001_010_0001_0010001101001111_1111 = .ok (.printRel 1 0x234F) ∧
    decodeWord 0b01100_001_0000_0000_0000_0000_0000_0000 = .error .illegalMode ∧
    decodeWord 0b10010_000_0000_0000_0000_0000_0000_0000 = .error .unknownOpcode

/-- R53 and R51: a four-byte read is big-endian, at any address, aligned or not. -/
def Obligations.WordReadsAreBigEndian : Prop :=
  ∀ (m : Memory) (a : Nat),
    (memReadWord m a).toNat =
      (memRead m a).toNat * 2 ^ 24 + (memRead m (a + 1)).toNat * 2 ^ 16 + (memRead m (a + 2)).toNat * 2 ^ 8 +
        (memRead m (a + 3)).toNat

/-- R30, R36 and the canonical form of memory: `State.Inv` holds right after reset. -/
def Obligations.ResetMeetsTheInvariant : Prop := State.reset.Inv

/-- R30, R36 and the canonical form of memory: from every state that meets the invariant, a step gives one that does. -/
def Obligations.StepKeepsTheInvariant : Prop := ∀ s t : State, s.Inv → step s = .next t → t.Inv

/-- Every machine the host can have meets the invariant: an accepted load gives it, the host's reset keeps it, and a run of
any length from a state that has it keeps it. -/
def Obligations.EveryLoadedRunMeetsTheInvariant : Prop :=
  (∀ (image : List Byte) (s t : State), hostLoad image = some s → Reaches s t → t.Inv) ∧
    ∀ s t : State, s.Inv → Reaches (hostReset s) t → t.Inv

/-- R101: every state has exactly one next state, and a run of any number of steps never stops short. -/
def Obligations.EveryStateHasExactlyOneNextState : Prop :=
  (∀ s : State, ∃! t, step s = .next t) ∧ ∀ (n : Nat) (s : State), ∃! t, Host.Core.run core n s = .next t

/-- R35, R192 (the spec's decision D26): a halted machine is never left by steps, so its cause is kept, and the host's reset
makes it run again. -/
def Obligations.HaltedMachineWaitsForReset : Prop :=
  ∀ s t : State, s.run = .halted → Reaches s t →
    t = s ∧ (hostReset t).run = .running ∧ (hostReset t).cause = .none

/-- R184 (the spec's decision D24): a step of a running machine that ends in a fault changes `STATE` and `CAUSE` and
nothing else. -/
def Obligations.FaultingStepChangesOnlyStateAndCause : Prop :=
  ∀ s t : State, s.run = .running → s.cause = .none → step s = .next t → t.cause.isFault = true →
    t = faulted t.cause s

/-- R186 (the spec's decision D20): the fetch fault, exactly when `pc > 4092`, with `pc` left as it was. -/
def Obligations.FetchFaultsExactlyAbove4092 : Prop :=
  ∀ s t : State, s.run = .running → s.cause = .none → step s = .next t →
    (t.cause = .fetchOutOfRange ↔ 4092 < s.pc.toNat) ∧ (t.cause = .fetchOutOfRange → t = faulted .fetchOutOfRange s)

/-- R187 (the spec's decision D21): an instruction with a data address above 4095 faults with nothing else changed, before
its access and before any write, for reads and writes alike; with none, or with one that exists, only `HLT` touches
`STATE` and `CAUSE`. -/
def Obligations.DataFaultsExactlyAbove4095 : Prop :=
  ∀ (i : Instr) (s : State),
    (∀ a, dataAddress i s = some a → 4095 < a → exec i s = .next (faulted .dataOutOfRange s)) ∧
      ((∀ a, dataAddress i s = some a → a ≤ 4095) → i ≠ .hlt →
        ∃ t, exec i s = .next t ∧ t.run = s.run ∧ t.cause = s.cause)

/-- R28: how each step of a running machine leaves `pc`. -/
def Obligations.StepLeavesThePcAsTheTableSays : Prop :=
  ∀ s t : State, step s = .next t →
    (t.run = .halted → t.pc = s.pc) ∧
      (t.run = .running →
        ∃ i, FetchedIs s i ∧ i ≠ .hlt ∧
          (∀ p, takenTarget i s = some p → t.pc.toNat = p) ∧ (takenTarget i s = none → t.pc.toNat = nextPc s))

/-- R29 (the spec's decisions D17, D20): a sequential advance never wraps and never goes beyond 4096; only a taken jump
does. -/
def Obligations.SequentialAdvanceStaysInReach : Prop :=
  ∀ (s t : State) (i : Instr), s.run = .running → FetchedIs s i → takenTarget i s = none → step s = .next t →
    t.run = .running → t.pc.toNat = s.pc.toNat + 4 ∧ t.pc.toNat ≤ 4096

/-- R26, R31 and R23: of every instruction, the cells that are not its destination are unchanged; no instruction touches
`sp` implicitly. -/
def Obligations.OnlyTheDestinationCellChanges : Prop :=
  ∀ (i : Instr) (s t : State), exec i s = .next t →
    ∀ (k : Nat) (hk : k < 14), destination i ≠ some (BitVec.ofNat 4 k) → t.regs[k] = s.regs[k]

/-- R31 (the spec's decision D12): who writes `FLAGS`. An instruction whose destination is not `cmp` leaves every flag,
except that `CMP` may change bits 1..0 and that `ADD`, `SUB`, `MUL`, `DIV` may set bits among 4..2 and clear none. -/
def Obligations.FlagsChangeOnlyAsTheirRuleSays : Prop :=
  ∀ (i : Instr) (s t : State), exec i s = .next t → destination i ≠ some 14 →
    (isCompare i = false → isArithmetic i = false → t.flags = s.flags) ∧
      (isCompare i = true → t.flags &&& 0xFC = s.flags &&& 0xFC) ∧
      (isArithmetic i = true → ∃ set : Byte, set &&& 0x1C = set ∧ t.flags = s.flags ||| set)

/-- R54 and R56: every byte of memory is unchanged but the one byte at the address the instruction stores to, computed as
its meaning computes it; an instruction that stores nothing changes no byte. -/
def Obligations.OnlyTheStoredByteChanges : Prop :=
  ∀ (i : Instr) (s t : State), exec i s = .next t →
    (∀ a, storesTo i s = some a → ∀ b, b ≠ a → memRead t.mem b = memRead s.mem b) ∧
      (storesTo i s = none → ∀ b, memRead t.mem b = memRead s.mem b)

/-- R38 (the spec's decision D27): `OUT` only grows, by one value at a time, and only by `PRINT`. -/
def Obligations.OutputGrowsOnlyByPrint : Prop :=
  (∀ (i : Instr) (s t : State), exec i s = .next t →
      t.out = s.out ∨ isPrint i = true ∧ ∃ v : Byte, t.out = s.out ++ [v]) ∧
    ∀ s t : State, Reaches s t → s.out <+: t.out

/-- R38 and R36, "no instruction reads it": what was emitted before, and the recorded cause, do not influence a step. -/
def Obligations.OutputAndCauseDoNotInfluenceAStep : Prop :=
  ∀ (s t : State) (earlier : List Byte) (c : Cause), step s = .next t →
    ∃ c', step { s with out := earlier ++ s.out, cause := c } = .next { t with out := earlier ++ t.out, cause := c' }

/-- R64, R219 (the spec's decision D33): after a store to memory, the word fetched at any address is the old one with the
stored byte in its place, at once. -/
def Obligations.StoresAreSeenByTheNextFetch : Prop :=
  ∀ (i : Instr) (rs : RegIdx) (dest : Operand) (s t : State) (a : Nat),
    (∃ v, i = .strLit rs v ∧ dest = .lit v) ∨ (∃ rb off, i = .strRel rs rb off ∧ dest = .rel rb off) →
    s.mem.wf = true → storeAddress dest s = some a → a ≤ 4095 → exec i s = .next t →
      ∀ p : Nat, memReadWord t.mem p =
        wordOfBytes (if p = a then readReg rs s else memRead s.mem p)
          (if p + 1 = a then readReg rs s else memRead s.mem (p + 1))
          (if p + 2 = a then readReg rs s else memRead s.mem (p + 2))
          (if p + 3 = a then readReg rs s else memRead s.mem (p + 3))

/-- R61 with R34: a byte stored by `STR` is what `LDR` through `zero` then loads from that absolute address, into any cell,
and a load from another address gives what was there. -/
def Obligations.LoadReturnsTheLatestStore : Prop :=
  ∀ (s : State) (rs rd : RegIdx) (v v' : Half), s.mem.wf = true → v.toNat ≤ 4095 → v'.toNat ≤ 4095 → rd.toNat < 14 →
    ∃ t u, exec (.strLit rs v) s = .next t ∧ exec (.ldrRel rd 15 v') t = .next u ∧
      readReg rd u = if v' = v then readReg rs s else memRead s.mem v'.toNat

/-- R216 (the spec's decision D24): a run that is over, from a state that meets the invariant, ended normally or by a
fault, and not both. -/
def Obligations.EndedRunEndedInExactlyOneWay : Prop :=
  ∀ s t : State, s.Inv → Reaches s t → t.ended →
    (t.endedNormally ∨ t.endedByFault) ∧ ¬(t.endedNormally ∧ t.endedByFault)

/-- The model's choice of log entry 5: a state with a decodable word placed by `withFetchWord` runs exactly that
instruction in its next step. -/
def Obligations.PlacedWordRunsNext : Prop :=
  ∀ (s : State) (w : Nat) (i : Instr), s.mem.wf = true → decodeTableWord 32 w = some i →
    step (s.withFetchWord 32 w) = exec i (s.withFetchWord 32 w)
end

