-- ==== Sys2Proof/Laws/Decode.lean ====
section
/-! SUPPORT. What each field of a packed word holds, format by format (spec/30_encoding.md R74 to R80), and the byte order of
a word (spec/20_memory.md R51). -/

namespace Sys2Proof

/-- A field as a number. -/
theorem field_toNat (w : Word) (lo n : Nat) : (field w lo n).toNat = w.toNat / 2 ^ lo % 2 ^ n := by
  rw [field, BitVec.extractLsb'_toNat, Nat.shiftRight_eq_div_pow]

/-- Concatenation as a number: the left part in the high bits (R7). -/
theorem append_toNat {m n : Nat} (x : BitVec m) (y : BitVec n) : (x ++ y).toNat = x.toNat * 2 ^ n + y.toNat := by
  rw [BitVec.toNat_append, ← Nat.shiftLeft_add_eq_or_of_lt y.isLt, Nat.shiftLeft_eq]

theorem wordOfBytes_toNat (b0 b1 b2 b3 : Byte) :
    (wordOfBytes b0 b1 b2 b3).toNat = b0.toNat * 2 ^ 24 + b1.toNat * 2 ^ 16 + b2.toNat * 2 ^ 8 + b3.toNat := by
  rw [wordOfBytes, append_toNat, append_toNat, append_toNat]
  omega

/-- Splitting a word into bytes and joining them gives it back (R51). -/
theorem wordOfBytes_bytesOfWord (w : Word) : wordOfBytes (field w 24 8) (field w 16 8) (field w 8 8) (field w 0 8) = w := by
  apply BitVec.eq_of_toNat_eq
  rw [wordOfBytes_toNat]
  simp only [field_toNat]
  omega

@[simp] theorem bytesOfWord_length (w : Word) : (bytesOfWord w).length = 4 := rfl

/-- Decoding the bytes of a word decodes the word. -/
theorem decode_bytesOfWord (w : Word) :
    decode (bytesOfWord w) =
      match decodeWord w with
      | .ok i => .ok i
      | .error b => .error (.badWord b) := by
  cases h : decodeWord w <;> simp only [bytesOfWord, decode, wordOfBytes_bytesOfWord, h]

theorem packN_toNat (h : Header) :
    (packN h).toNat = h.opc.toNat * 2 ^ 27 + h.tag.toNat * 2 ^ 24 := by
  simp only [packN, append_toNat, BitVec.toNat_ofNat]
  omega

theorem packUValue_toNat (h : Header) (v : Half) :
    (packUValue h v).toNat = h.opc.toNat * 2 ^ 27 + h.tag.toNat * 2 ^ 24 + v.toNat * 2 ^ 8 := by
  simp only [packUValue, append_toNat, BitVec.toNat_ofNat]
  omega

theorem packUReg_toNat (h : Header) (rs : RegIdx) :
    (packUReg h rs).toNat = h.opc.toNat * 2 ^ 27 + h.tag.toNat * 2 ^ 24 + rs.toNat * 2 ^ 20 := by
  simp only [packUReg, append_toNat, BitVec.toNat_ofNat]
  omega

theorem packURel_toNat (h : Header) (rb : RegIdx) (off : Half) :
    (packURel h rb off).toNat = h.opc.toNat * 2 ^ 27 + h.tag.toNat * 2 ^ 24 + rb.toNat * 2 ^ 20 + off.toNat * 2 ^ 4 := by
  simp only [packURel, append_toNat, BitVec.toNat_ofNat]
  omega

theorem packBLit_toNat (h : Header) (r0 : RegIdx) (v : Half) :
    (packBLit h r0 v).toNat = h.opc.toNat * 2 ^ 27 + h.tag.toNat * 2 ^ 24 + r0.toNat * 2 ^ 20 + v.toNat * 2 ^ 4 := by
  simp only [packBLit, append_toNat, BitVec.toNat_ofNat]
  omega

theorem packBReg_toNat (h : Header) (r0 r1 : RegIdx) :
    (packBReg h r0 r1).toNat = h.opc.toNat * 2 ^ 27 + h.tag.toNat * 2 ^ 24 + r0.toNat * 2 ^ 20 + r1.toNat * 2 ^ 16 := by
  simp only [packBReg, append_toNat, BitVec.toNat_ofNat]
  omega

theorem packBRel_toNat (h : Header) (r0 rb : RegIdx) (off : Half) :
    (packBRel h r0 rb off).toNat = h.opc.toNat * 2 ^ 27 + h.tag.toNat * 2 ^ 24 + r0.toNat * 2 ^ 20 + rb.toNat * 2 ^ 16 + off.toNat := by
  simp only [packBRel, append_toNat]
  omega

theorem packN_opc (h : Header) : field (packN h) 27 5 = h.opc := by
  apply BitVec.eq_of_toNat_eq
  rw [field_toNat, packN_toNat]
  omega

theorem packN_tag (h : Header) : field (packN h) 24 3 = h.tag := by
  apply BitVec.eq_of_toNat_eq
  rw [field_toNat, packN_toNat]
  omega

theorem packUValue_opc (h : Header) (v : Half) : field (packUValue h v) 27 5 = h.opc := by
  apply BitVec.eq_of_toNat_eq
  rw [field_toNat, packUValue_toNat]
  omega

theorem packUValue_tag (h : Header) (v : Half) : field (packUValue h v) 24 3 = h.tag := by
  apply BitVec.eq_of_toNat_eq
  rw [field_toNat, packUValue_toNat]
  omega

theorem packUValue_value (h : Header) (v : Half) : field (packUValue h v) 8 16 = v := by
  apply BitVec.eq_of_toNat_eq
  rw [field_toNat, packUValue_toNat]
  omega

theorem packUReg_opc (h : Header) (rs : RegIdx) : field (packUReg h rs) 27 5 = h.opc := by
  apply BitVec.eq_of_toNat_eq
  rw [field_toNat, packUReg_toNat]
  omega

theorem packUReg_tag (h : Header) (rs : RegIdx) : field (packUReg h rs) 24 3 = h.tag := by
  apply BitVec.eq_of_toNat_eq
  rw [field_toNat, packUReg_toNat]
  omega

theorem packUReg_reg (h : Header) (rs : RegIdx) : field (packUReg h rs) 20 4 = rs := by
  apply BitVec.eq_of_toNat_eq
  rw [field_toNat, packUReg_toNat]
  omega

theorem packURel_opc (h : Header) (rb : RegIdx) (off : Half) : field (packURel h rb off) 27 5 = h.opc := by
  apply BitVec.eq_of_toNat_eq
  rw [field_toNat, packURel_toNat]
  omega

theorem packURel_tag (h : Header) (rb : RegIdx) (off : Half) : field (packURel h rb off) 24 3 = h.tag := by
  apply BitVec.eq_of_toNat_eq
  rw [field_toNat, packURel_toNat]
  omega

theorem packURel_base (h : Header) (rb : RegIdx) (off : Half) : field (packURel h rb off) 20 4 = rb := by
  apply BitVec.eq_of_toNat_eq
  rw [field_toNat, packURel_toNat]
  omega

theorem packURel_off (h : Header) (rb : RegIdx) (off : Half) : field (packURel h rb off) 4 16 = off := by
  apply BitVec.eq_of_toNat_eq
  rw [field_toNat, packURel_toNat]
  omega

theorem packBLit_opc (h : Header) (r0 : RegIdx) (v : Half) : field (packBLit h r0 v) 27 5 = h.opc := by
  apply BitVec.eq_of_toNat_eq
  rw [field_toNat, packBLit_toNat]
  omega

theorem packBLit_tag (h : Header) (r0 : RegIdx) (v : Half) : field (packBLit h r0 v) 24 3 = h.tag := by
  apply BitVec.eq_of_toNat_eq
  rw [field_toNat, packBLit_toNat]
  omega

theorem packBLit_target (h : Header) (r0 : RegIdx) (v : Half) : field (packBLit h r0 v) 20 4 = r0 := by
  apply BitVec.eq_of_toNat_eq
  rw [field_toNat, packBLit_toNat]
  omega

theorem packBLit_value (h : Header) (r0 : RegIdx) (v : Half) : field (packBLit h r0 v) 4 16 = v := by
  apply BitVec.eq_of_toNat_eq
  rw [field_toNat, packBLit_toNat]
  omega

theorem packBReg_opc (h : Header) (r0 r1 : RegIdx) : field (packBReg h r0 r1) 27 5 = h.opc := by
  apply BitVec.eq_of_toNat_eq
  rw [field_toNat, packBReg_toNat]
  omega

theorem packBReg_tag (h : Header) (r0 r1 : RegIdx) : field (packBReg h r0 r1) 24 3 = h.tag := by
  apply BitVec.eq_of_toNat_eq
  rw [field_toNat, packBReg_toNat]
  omega

theorem packBReg_target (h : Header) (r0 r1 : RegIdx) : field (packBReg h r0 r1) 20 4 = r0 := by
  apply BitVec.eq_of_toNat_eq
  rw [field_toNat, packBReg_toNat]
  omega

theorem packBReg_reg (h : Header) (r0 r1 : RegIdx) : field (packBReg h r0 r1) 16 4 = r1 := by
  apply BitVec.eq_of_toNat_eq
  rw [field_toNat, packBReg_toNat]
  omega

theorem packBRel_opc (h : Header) (r0 rb : RegIdx) (off : Half) : field (packBRel h r0 rb off) 27 5 = h.opc := by
  apply BitVec.eq_of_toNat_eq
  rw [field_toNat, packBRel_toNat]
  omega

theorem packBRel_tag (h : Header) (r0 rb : RegIdx) (off : Half) : field (packBRel h r0 rb off) 24 3 = h.tag := by
  apply BitVec.eq_of_toNat_eq
  rw [field_toNat, packBRel_toNat]
  omega

theorem packBRel_target (h : Header) (r0 rb : RegIdx) (off : Half) : field (packBRel h r0 rb off) 20 4 = r0 := by
  apply BitVec.eq_of_toNat_eq
  rw [field_toNat, packBRel_toNat]
  omega

theorem packBRel_base (h : Header) (r0 rb : RegIdx) (off : Half) : field (packBRel h r0 rb off) 16 4 = rb := by
  apply BitVec.eq_of_toNat_eq
  rw [field_toNat, packBRel_toNat]
  omega

theorem packBRel_off (h : Header) (r0 rb : RegIdx) (off : Half) : field (packBRel h r0 rb off) 0 16 = off := by
  apply BitVec.eq_of_toNat_eq
  rw [field_toNat, packBRel_toNat]
  omega

/-- A class B word decodes to the form its tag names, with the operands it was packed from (R78 to R80). -/
theorem decodeClassB_packBLit (n : BitVec 5) (r0 : RegIdx) (v : Half) (lit : RegIdx → Half → Instr)
    (reg : RegIdx → RegIdx → Instr) (rel : RegIdx → RegIdx → Half → Instr) :
    decodeClassB (packBLit ⟨n, 0⟩ r0 v) lit reg rel = .ok (lit r0 v) := by
  unfold decodeClassB
  rw [packBLit_tag]
  simp [packBLit_target, packBLit_value]

theorem decodeClassB_packBReg (n : BitVec 5) (r0 r1 : RegIdx) (lit : RegIdx → Half → Instr)
    (reg : RegIdx → RegIdx → Instr) (rel : RegIdx → RegIdx → Half → Instr) :
    decodeClassB (packBReg ⟨n, 1⟩ r0 r1) lit reg rel = .ok (reg r0 r1) := by
  unfold decodeClassB
  rw [packBReg_tag]
  simp [packBReg_target, packBReg_reg]

theorem decodeClassB_packBRel (n : BitVec 5) (r0 rb : RegIdx) (off : Half) (lit : RegIdx → Half → Instr)
    (reg : RegIdx → RegIdx → Instr) (rel : RegIdx → RegIdx → Half → Instr) :
    decodeClassB (packBRel ⟨n, 2⟩ r0 rb off) lit reg rel = .ok (rel r0 rb off) := by
  unfold decodeClassB
  rw [packBRel_tag]
  simp [packBRel_target, packBRel_base, packBRel_off]

/-- A jump word decodes to the form its tag names (R75). -/
theorem decodeJump_packUValue_lit (n : BitVec 5) (v : Half) (lit pcr : Half → Instr) :
    decodeJump (packUValue ⟨n, 0⟩ v) lit pcr = .ok (lit v) := by
  unfold decodeJump
  rw [packUValue_tag]
  simp [packUValue_value]

theorem decodeJump_packUValue_pcr (n : BitVec 5) (d : Half) (lit pcr : Half → Instr) :
    decodeJump (packUValue ⟨n, 3⟩ d) lit pcr = .ok (pcr d) := by
  unfold decodeJump
  rw [packUValue_tag]
  simp [packUValue_value]

/-- A `PRINT` word decodes to the form its tag names (R75 to R77). -/
theorem decodePrint_packUValue (n : BitVec 5) (v : Half) : decodePrint (packUValue ⟨n, 0⟩ v) = .ok (.printLit v) := by
  unfold decodePrint
  rw [packUValue_tag]
  simp [packUValue_value]

theorem decodePrint_packUReg (n : BitVec 5) (rs : RegIdx) : decodePrint (packUReg ⟨n, 1⟩ rs) = .ok (.printReg rs) := by
  unfold decodePrint
  rw [packUReg_tag]
  simp [packUReg_reg]

theorem decodePrint_packURel (n : BitVec 5) (rb : RegIdx) (off : Half) :
    decodePrint (packURel ⟨n, 2⟩ rb off) = .ok (.printRel rb off) := by
  unfold decodePrint
  rw [packURel_tag]
  simp [packURel_base, packURel_off]

end Sys2Proof
end

