-- ==== Sys2Proof/Laws/Flags.lean ====
section
/-! SUPPORT. The flag computations: each keeps the unused bits of `FLAGS` at 0 (spec/10_state.md R30), the ALU's only
ever set bits (R31), and what `CMP` leaves in the compare code (spec/43_compare.md R150). -/

namespace Sys2Proof.Machine

theorem raiseOverflow_legal (wide : Int) {f : Byte} (h : f &&& ~~~Config.flagsUsed = 0) :
    raiseOverflow wide f &&& ~~~Config.flagsUsed = 0 := by
  unfold raiseOverflow
  split
  · revert f; decide
  · exact h

theorem raiseUnderflow_legal (wide : Int) {f : Byte} (h : f &&& ~~~Config.flagsUsed = 0) :
    raiseUnderflow wide f &&& ~~~Config.flagsUsed = 0 := by
  unfold raiseUnderflow
  split
  · revert f; decide
  · exact h

theorem raiseDivideByZero_legal {f : Byte} (h : f &&& ~~~Config.flagsUsed = 0) :
    raiseDivideByZero f &&& ~~~Config.flagsUsed = 0 := by
  revert f; decide

theorem compareFlags_legal (d : Int) {f : Byte} (h : f &&& ~~~Config.flagsUsed = 0) :
    compareFlags d f &&& ~~~Config.flagsUsed = 0 := by
  unfold compareFlags
  split
  · revert f; decide
  · split <;> (revert f; decide)

/-- The compare code after `CMP` (R150). -/
theorem compareCode_compareFlags (d : Int) (f : Byte) :
    compareCode (compareFlags d f) = if d = 0 then codeEqual else if d < 0 then codeLess else codeGreater := by
  unfold compareFlags
  split
  · revert f; decide
  · split <;> (revert f; decide)

/-- `CMP` leaves `DZ`, `OV`, `UF` (and the unused bits) as they were (R150). -/
theorem compareFlags_high (d : Int) (f : Byte) : compareFlags d f &&& 0xFC = f &&& 0xFC := by
  unfold compareFlags
  split
  · revert f; decide
  · split <;> (revert f; decide)

end Sys2Proof.Machine
end

