-- ==== Sys2Proof/Laws/Memory.lean ====
section
/-! SUPPORT. Memory: reading after writing, the canonical form is kept by every operation, and memories that read alike
are equal (spec/20_memory.md R53, R54, R61). -/

namespace Sys2Proof.Machine

@[simp] theorem memRead_nil (a : Nat) : memRead [] a = Config.fillByte := rfl

theorem memRead_cons (k : Nat) (v : Byte) (m : Memory) (a : Nat) :
    memRead ((k, v) :: m) a = if k = a then v else memRead m a := rfl

theorem wfFrom_cons (lo k : Nat) (v : Byte) (m : Memory) :
    Memory.wfFrom lo ((k, v) :: m) = true ↔
      lo ≤ k ∧ k < Config.memSize ∧ v ≠ Config.fillByte ∧ Memory.wfFrom (k + 1) m = true := by
  simp [Memory.wfFrom, and_assoc]

/-- A canonical form holds from every lower bound as well. -/
theorem wfFrom_mono {lo lo' : Nat} {m : Memory} (h : Memory.wfFrom lo m = true) (hle : lo' ≤ lo) :
    Memory.wfFrom lo' m = true := by
  cases m with
  | nil => rfl
  | cons c m =>
    obtain ⟨k, v⟩ := c
    rw [wfFrom_cons] at h ⊢
    exact ⟨hle.trans h.1, h.2⟩

/-- Below the first listed address every byte is the fill byte. -/
theorem memRead_of_lt {lo : Nat} {m : Memory} (h : Memory.wfFrom lo m = true) {a : Nat} (ha : a < lo) :
    memRead m a = Config.fillByte := by
  induction m generalizing lo with
  | nil => rfl
  | cons c m ih =>
    obtain ⟨k, v⟩ := c
    rw [wfFrom_cons] at h
    rw [memRead_cons, if_neg (by omega)]
    exact ih h.2.2.2 (by omega)

/-- Above the address space nothing is listed. -/
theorem memRead_of_ge {lo : Nat} {m : Memory} (h : Memory.wfFrom lo m = true) {a : Nat} (ha : Config.memSize ≤ a) :
    memRead m a = Config.fillByte := by
  induction m generalizing lo with
  | nil => rfl
  | cons c m ih =>
    obtain ⟨k, v⟩ := c
    rw [wfFrom_cons] at h
    rw [memRead_cons, if_neg (by omega)]
    exact ih h.2.2.2

/-- A write leaves every other byte alone, in any memory. -/
theorem memRead_memWrite_of_ne (m : Memory) {a b : Nat} (v : Byte) (hne : b ≠ a) :
    memRead (memWrite m a v) b = memRead m b := by
  induction m with
  | nil =>
    unfold memWrite
    split
    · rfl
    · rw [memRead_cons, if_neg (Ne.symm hne)]
  | cons c m ih =>
    obtain ⟨k, u⟩ := c
    unfold memWrite
    split
    · simp only [memRead_cons, ih]
    · split
      · rename_i hk
        split
        · rw [memRead_cons, if_neg (by omega)]
        · rw [memRead_cons, memRead_cons, if_neg (Ne.symm hne), if_neg (by omega)]
      · split
        · rfl
        · rw [memRead_cons, if_neg (Ne.symm hne)]

/-- A read after a write to the same place gives the value written. -/
theorem memRead_memWrite_same_from {lo : Nat} {m : Memory} (h : Memory.wfFrom lo m = true) (a : Nat) (v : Byte) :
    memRead (memWrite m a v) a = v := by
  induction m generalizing lo with
  | nil =>
    unfold memWrite
    split
    · simp_all
    · rw [memRead_cons, if_pos rfl]
  | cons c m ih =>
    obtain ⟨k, u⟩ := c
    rw [wfFrom_cons] at h
    unfold memWrite
    split
    · rw [memRead_cons, if_neg (by omega)]
      exact ih h.2.2.2
    · split
      · rename_i hk
        split
        · rename_i hv
          rw [memRead_of_lt h.2.2.2 (by omega), hv]
        · rw [memRead_cons, if_pos rfl]
      · split
        · rename_i hv
          rw [memRead_cons, if_neg (by omega), memRead_of_lt h.2.2.2 (by omega), hv]
        · rw [memRead_cons, if_pos rfl]

theorem memRead_memWrite_same {m : Memory} (h : m.wf = true) (a : Nat) (v : Byte) : memRead (memWrite m a v) a = v :=
  memRead_memWrite_same_from h a v

/-- Both laws of a write at once (R61). -/
theorem memRead_memWrite {m : Memory} (h : m.wf = true) (a b : Nat) (v : Byte) :
    memRead (memWrite m a v) b = if b = a then v else memRead m b := by
  split
  · rename_i hb
    rw [hb]
    exact memRead_memWrite_same h a v
  · rename_i hb
    exact memRead_memWrite_of_ne m v hb

/-- A write inside the address space keeps the canonical form from any bound it respects. -/
theorem memWrite_wfFrom {lo : Nat} {m : Memory} (h : Memory.wfFrom lo m = true) {a : Nat} (hlo : lo ≤ a)
    (ha : a < Config.memSize) (v : Byte) : Memory.wfFrom lo (memWrite m a v) = true := by
  induction m generalizing lo with
  | nil =>
    unfold memWrite
    split
    · rfl
    · rename_i hv
      rw [wfFrom_cons]
      exact ⟨hlo, ha, hv, rfl⟩
  | cons c m ih =>
    obtain ⟨k, u⟩ := c
    have hm := (wfFrom_cons lo k u m).mp h
    unfold memWrite
    split
    · rw [wfFrom_cons]
      exact ⟨hm.1, hm.2.1, hm.2.2.1, ih hm.2.2.2 (by omega)⟩
    · split
      · rename_i hk
        split
        · exact wfFrom_mono hm.2.2.2 (by omega)
        · rename_i hv
          rw [wfFrom_cons]
          exact ⟨hlo, ha, hv, hk ▸ hm.2.2.2⟩
      · split
        · exact h
        · rename_i hv
          rw [wfFrom_cons, wfFrom_cons]
          exact ⟨hlo, ha, hv, by omega, hm.2⟩

theorem memWrite_wf {m : Memory} (h : m.wf = true) {a : Nat} (ha : a < Config.memSize) (v : Byte) :
    (memWrite m a v).wf = true :=
  memWrite_wfFrom h (Nat.zero_le a) ha v

theorem memWriteAll_wf {m : Memory} (h : m.wf = true) {a : Nat} {bytes : List Byte}
    (ha : a + bytes.length ≤ Config.memSize) : (memWriteAll m a bytes).wf = true := by
  induction bytes generalizing m a with
  | nil => exact h
  | cons v rest ih =>
    rw [List.length_cons] at ha
    exact ih (memWrite_wf h (by omega) v) (by omega)

/-- Copying bytes in leaves the bytes outside the range alone. -/
theorem memRead_memWriteAll_outside (m : Memory) {a b : Nat} {bytes : List Byte} (hb : b < a ∨ a + bytes.length ≤ b) :
    memRead (memWriteAll m a bytes) b = memRead m b := by
  induction bytes generalizing m a with
  | nil => rfl
  | cons v rest ih =>
    rw [List.length_cons] at hb
    rw [memWriteAll, ih _ (by omega), memRead_memWrite_of_ne m v (by omega)]

/-- Copying bytes in puts each at its place. -/
theorem memRead_memWriteAll_inside {m : Memory} (h : m.wf = true) {a : Nat} {bytes : List Byte}
    (ha : a + bytes.length ≤ Config.memSize) {k : Nat} (hk : k < bytes.length) :
    memRead (memWriteAll m a bytes) (a + k) = bytes[k] := by
  induction bytes generalizing m a k with
  | nil => exact absurd hk (by simp)
  | cons v rest ih =>
    rw [List.length_cons] at ha hk
    rw [memWriteAll]
    cases k with
    | zero =>
      rw [memRead_memWriteAll_outside _ (by omega)]
      exact memRead_memWrite_same h a v
    | succ k =>
      have := ih (memWrite_wf h (a := a) (by omega) v) (a := a + 1) (by omega) (k := k) (by omega)
      rw [show a + (k + 1) = a + 1 + k by omega, this]
      rfl

/-- Canonical memories that read alike are the same list. -/
theorem memory_ext_from {lo : Nat} {m n : Memory} (hm : Memory.wfFrom lo m = true) (hn : Memory.wfFrom lo n = true)
    (h : ∀ a, memRead m a = memRead n a) : m = n := by
  induction m generalizing lo n with
  | nil =>
    cases n with
    | nil => rfl
    | cons c n =>
      obtain ⟨k, v⟩ := c
      have hk := h k
      rw [memRead_nil, memRead_cons, if_pos rfl] at hk
      exact absurd hk.symm ((wfFrom_cons _ _ _ _).mp hn).2.2.1
  | cons c m ih =>
    obtain ⟨k, v⟩ := c
    have hm' := (wfFrom_cons _ _ _ _).mp hm
    cases n with
    | nil =>
      have hk := h k
      rw [memRead_nil, memRead_cons, if_pos rfl] at hk
      exact absurd hk hm'.2.2.1
    | cons d n =>
      obtain ⟨j, u⟩ := d
      have hn' := (wfFrom_cons _ _ _ _).mp hn
      have hkj : k = j := by
        rcases Nat.lt_trichotomy k j with hlt | heq | hgt
        · have hk := h k
          rw [memRead_cons, if_pos rfl, memRead_cons, if_neg (by omega),
            memRead_of_lt hn'.2.2.2 (by omega)] at hk
          exact absurd hk hm'.2.2.1
        · exact heq
        · have hj := h j
          rw [memRead_cons, if_neg (by omega), memRead_of_lt hm'.2.2.2 (by omega), memRead_cons,
            if_pos rfl] at hj
          exact absurd hj.symm hn'.2.2.1
      subst hkj
      have hv := h k
      rw [memRead_cons, memRead_cons, if_pos rfl, if_pos rfl] at hv
      have htail : m = n := by
        refine ih hm'.2.2.2 hn'.2.2.2 fun a => ?_
        by_cases ha : k = a
        · rw [memRead_of_lt hm'.2.2.2 (by omega), memRead_of_lt hn'.2.2.2 (by omega)]
        · have := h a
          rwa [memRead_cons, memRead_cons, if_neg ha, if_neg ha] at this
      rw [hv, htail]

end Sys2Proof.Machine
end

