-- ==== Sys2Proof/Laws/State.lean ====
section
/-! SUPPORT. One lemma for each field and each update of the state, so that no later proof unfolds an update. -/

namespace Sys2Proof.Machine

@[simp] theorem writeReg_pc (i : RegIdx) (v : Byte) (s : State) : (writeReg i v s).pc = s.pc := rfl

@[simp] theorem writeReg_run (i : RegIdx) (v : Byte) (s : State) : (writeReg i v s).run = s.run := rfl

@[simp] theorem writeReg_cause (i : RegIdx) (v : Byte) (s : State) : (writeReg i v s).cause = s.cause := rfl

@[simp] theorem writeReg_mem (i : RegIdx) (v : Byte) (s : State) : (writeReg i v s).mem = s.mem := rfl

@[simp] theorem writeReg_out (i : RegIdx) (v : Byte) (s : State) : (writeReg i v s).out = s.out := rfl

theorem writeReg_flags (i : RegIdx) (v : Byte) (s : State) :
    (writeReg i v s).flags = if i = Config.regCmp then v &&& Config.flagsUsed else s.flags := rfl

theorem writeReg_regs (i : RegIdx) (v : Byte) (s : State) :
    (writeReg i v s).regs = if h : i.toNat < Config.cellCount then s.regs.set i.toNat v else s.regs := rfl

@[simp] theorem setFlags_regs (f : Byte) (s : State) : (setFlags f s).regs = s.regs := rfl

@[simp] theorem setFlags_flags (f : Byte) (s : State) : (setFlags f s).flags = f := rfl

@[simp] theorem setFlags_pc (f : Byte) (s : State) : (setFlags f s).pc = s.pc := rfl

@[simp] theorem setFlags_run (f : Byte) (s : State) : (setFlags f s).run = s.run := rfl

@[simp] theorem setFlags_cause (f : Byte) (s : State) : (setFlags f s).cause = s.cause := rfl

@[simp] theorem setFlags_mem (f : Byte) (s : State) : (setFlags f s).mem = s.mem := rfl

@[simp] theorem setFlags_out (f : Byte) (s : State) : (setFlags f s).out = s.out := rfl

@[simp] theorem storeByte_regs (a : Nat) (v : Byte) (s : State) : (storeByte a v s).regs = s.regs := rfl

@[simp] theorem storeByte_flags (a : Nat) (v : Byte) (s : State) : (storeByte a v s).flags = s.flags := rfl

@[simp] theorem storeByte_pc (a : Nat) (v : Byte) (s : State) : (storeByte a v s).pc = s.pc := rfl

@[simp] theorem storeByte_run (a : Nat) (v : Byte) (s : State) : (storeByte a v s).run = s.run := rfl

@[simp] theorem storeByte_cause (a : Nat) (v : Byte) (s : State) : (storeByte a v s).cause = s.cause := rfl

@[simp] theorem storeByte_mem (a : Nat) (v : Byte) (s : State) : (storeByte a v s).mem = memWrite s.mem a v := rfl

@[simp] theorem storeByte_out (a : Nat) (v : Byte) (s : State) : (storeByte a v s).out = s.out := rfl

@[simp] theorem emit_regs (v : Byte) (s : State) : (emit v s).regs = s.regs := rfl

@[simp] theorem emit_flags (v : Byte) (s : State) : (emit v s).flags = s.flags := rfl

@[simp] theorem emit_pc (v : Byte) (s : State) : (emit v s).pc = s.pc := rfl

@[simp] theorem emit_run (v : Byte) (s : State) : (emit v s).run = s.run := rfl

@[simp] theorem emit_cause (v : Byte) (s : State) : (emit v s).cause = s.cause := rfl

@[simp] theorem emit_mem (v : Byte) (s : State) : (emit v s).mem = s.mem := rfl

@[simp] theorem emit_out (v : Byte) (s : State) : (emit v s).out = s.out ++ [v] := rfl

@[simp] theorem advance_regs (s : State) : (advance s).regs = s.regs := rfl

@[simp] theorem advance_flags (s : State) : (advance s).flags = s.flags := rfl

@[simp] theorem advance_pc (s : State) : (advance s).pc = s.pc + 4 := rfl

@[simp] theorem advance_run (s : State) : (advance s).run = s.run := rfl

@[simp] theorem advance_cause (s : State) : (advance s).cause = s.cause := rfl

@[simp] theorem advance_mem (s : State) : (advance s).mem = s.mem := rfl

@[simp] theorem advance_out (s : State) : (advance s).out = s.out := rfl

@[simp] theorem jumpTo_regs (t : Half) (s : State) : (jumpTo t s).regs = s.regs := rfl

@[simp] theorem jumpTo_flags (t : Half) (s : State) : (jumpTo t s).flags = s.flags := rfl

@[simp] theorem jumpTo_pc (t : Half) (s : State) : (jumpTo t s).pc = t := rfl

@[simp] theorem jumpTo_run (t : Half) (s : State) : (jumpTo t s).run = s.run := rfl

@[simp] theorem jumpTo_cause (t : Half) (s : State) : (jumpTo t s).cause = s.cause := rfl

@[simp] theorem jumpTo_mem (t : Half) (s : State) : (jumpTo t s).mem = s.mem := rfl

@[simp] theorem jumpTo_out (t : Half) (s : State) : (jumpTo t s).out = s.out := rfl

@[simp] theorem haltWith_regs (c : Cause) (s : State) : (haltWith c s).regs = s.regs := rfl

@[simp] theorem haltWith_flags (c : Cause) (s : State) : (haltWith c s).flags = s.flags := rfl

@[simp] theorem haltWith_pc (c : Cause) (s : State) : (haltWith c s).pc = s.pc := rfl

@[simp] theorem haltWith_run (c : Cause) (s : State) : (haltWith c s).run = .halted := rfl

@[simp] theorem haltWith_cause (c : Cause) (s : State) : (haltWith c s).cause = c := rfl

@[simp] theorem haltWith_mem (c : Cause) (s : State) : (haltWith c s).mem = s.mem := rfl

@[simp] theorem haltWith_out (c : Cause) (s : State) : (haltWith c s).out = s.out := rfl

@[simp] theorem readReg_storeByte (i : RegIdx) (a : Nat) (v : Byte) (s : State) : readReg i (storeByte a v s) = readReg i s := rfl

@[simp] theorem readReg_emit (i : RegIdx) (v : Byte) (s : State) : readReg i (emit v s) = readReg i s := rfl

@[simp] theorem readReg_advance (i : RegIdx) (s : State) : readReg i (advance s) = readReg i s := rfl

@[simp] theorem readReg_jumpTo (i : RegIdx) (t : Half) (s : State) : readReg i (jumpTo t s) = readReg i s := rfl

@[simp] theorem readReg_haltWith (i : RegIdx) (c : Cause) (s : State) : readReg i (haltWith c s) = readReg i s := rfl

end Sys2Proof.Machine
end

