-- ==== Sys2Proof/Laws/Operands.lean ====
section
/-! SUPPORT. Everything an instruction with a data operand can do, said once for each shared operation
(spec/40_step_and_operands.md R106, R107, spec/41_load_store.md R121). -/

namespace Sys2Proof.Machine

@[simp] theorem sourceValue_lit (v : Half) (s : State) : sourceValue (.lit v) s = some v.toNat := rfl

@[simp] theorem sourceValue_reg (r : RegIdx) (s : State) : sourceValue (.reg r) s = some (readReg r s).toNat := rfl

theorem addressExists_iff (a : Nat) : addressExists a = true ↔ a < Config.memSize := by
  rw [addressExists, decide_eq_true_iff]

theorem sourceValue_rel {rb : RegIdx} {off : Half} {s : State} (h : effectiveAddress rb off s < Config.memSize) :
    sourceValue (.rel rb off) s = some (memRead s.mem (effectiveAddress rb off s)).toNat := by
  rw [sourceValue, if_pos ((addressExists_iff _).mpr h)]

theorem sourceValue_rel_none {rb : RegIdx} {off : Half} {s : State}
    (h : Config.memSize ≤ effectiveAddress rb off s) : sourceValue (.rel rb off) s = none := by
  rw [sourceValue, if_neg (by rw [addressExists_iff]; omega)]

/-- Only a literal makes a source value exceed 255, and none exceeds 65535 (R107). -/
theorem sourceValue_lt {op : Operand} {s : State} {b : Nat} (h : sourceValue op s = some b) : b < 65536 := by
  cases op with
  | lit v => simp only [sourceValue_lit, Option.some.injEq] at h; omega
  | reg r => simp only [sourceValue_reg, Option.some.injEq] at h; omega
  | rel rb off =>
    rw [sourceValue] at h
    split at h
    · simp only [Option.some.injEq] at h; omega
    · cases h

theorem withSource_some {op : Operand} {s : State} {b : Nat} (h : sourceValue op s = some b) (f : Nat → State) :
    withSource op s f = .next (advance (f b)) := by
  rw [withSource, h]

theorem withSource_none {op : Operand} {s : State} (h : sourceValue op s = none) (f : Nat → State) :
    withSource op s f = .next (haltWith .dataOutOfRange s) := by
  rw [withSource, h]
  rfl

/-- An instruction that reads a source has its effect and advances, or faults with nothing else changed. -/
theorem withSource_cases (op : Operand) (s : State) (f : Nat → State) :
    (∃ b, sourceValue op s = some b ∧ withSource op s f = .next (advance (f b))) ∨
      (sourceValue op s = none ∧ withSource op s f = .next (haltWith .dataOutOfRange s)) := by
  cases h : sourceValue op s with
  | some b => exact .inl ⟨b, rfl, withSource_some h f⟩
  | none => exact .inr ⟨rfl, withSource_none h f⟩

theorem storeChecked_ok {a : Nat} (h : a < Config.memSize) (v : Byte) (s : State) :
    storeChecked a v s = .next (advance (storeByte a v s)) := by
  rw [storeChecked, if_pos ((addressExists_iff a).mpr h)]

theorem storeChecked_fault {a : Nat} (h : Config.memSize ≤ a) (v : Byte) (s : State) :
    storeChecked a v s = .next (haltWith .dataOutOfRange s) := by
  rw [storeChecked, if_neg (by rw [addressExists_iff]; omega)]
  rfl

/-- A store writes one existing byte, or a register, or faults with nothing else changed. -/
theorem storeTo_cases (op : Operand) (v : Byte) (s : State) :
    (∃ a, storeAddress op s = some a ∧ a < Config.memSize ∧ storeTo op v s = .next (advance (storeByte a v s))) ∨
      (∃ r, op = .reg r ∧ storeTo op v s = .next (advance (writeReg r v s))) ∨
      (∃ a, storeAddress op s = some a ∧ Config.memSize ≤ a ∧ storeTo op v s = .next (haltWith .dataOutOfRange s)) := by
  cases op with
  | lit a =>
    rcases Nat.lt_or_ge a.toNat Config.memSize with h | h
    · exact .inl ⟨_, rfl, h, storeChecked_ok h v s⟩
    · exact .inr (.inr ⟨_, rfl, h, storeChecked_fault h v s⟩)
  | reg r => exact .inr (.inl ⟨r, rfl, rfl⟩)
  | rel rb off =>
    rcases Nat.lt_or_ge (effectiveAddress rb off s) Config.memSize with h | h
    · exact .inl ⟨_, rfl, h, storeChecked_ok h v s⟩
    · exact .inr (.inr ⟨_, rfl, h, storeChecked_fault h v s⟩)

end Sys2Proof.Machine
end

