-- ==== Sys2Proof/Laws/Register.lean ====
section
/-! SUPPORT. Registers: what a write does to a later read, and what it leaves (spec/10_state.md R24, R25). -/

namespace Sys2Proof.Machine

theorem readReg_cell {i : RegIdx} (h : i.toNat < Config.cellCount) (s : State) : readReg i s = s.regs[i.toNat] := by
  rw [readReg, dif_pos h]

@[simp] theorem readReg_cmp (s : State) : readReg Config.regCmp s = s.flags := by
  rw [readReg, dif_neg (by decide), if_pos rfl]

@[simp] theorem readReg_zero (s : State) : readReg Config.regZero s = 0 := by
  rw [readReg, dif_neg (by decide), if_neg (by decide)]

/-- An index without a cell is `cmp` or `zero` (R22). -/
theorem regIdx_cases (i : RegIdx) : i.toNat < Config.cellCount ∨ i = Config.regCmp ∨ i = Config.regZero := by
  revert i
  decide

/-- A cell after a register write: the value when the write named it, its old content otherwise (R25). -/
theorem writeReg_cell (i : RegIdx) (v : Byte) (s : State) (k : Nat) (hk : k < Config.cellCount) :
    (writeReg i v s).regs[k] = if k = i.toNat then v else s.regs[k] := by
  rw [getElem_congr_coll (writeReg_regs i v s)]
  by_cases h : i.toNat < Config.cellCount
  · rw [getElem_congr_coll (dif_pos h), Vector.getElem_set]
    simp only [eq_comm]
  · rw [getElem_congr_coll (dif_neg h), if_neg (by omega)]

/-- A read after a write (R24, R25). -/
theorem readReg_writeReg (i j : RegIdx) (v : Byte) (s : State) :
    readReg i (writeReg j v s) =
      if i = j then (if j = Config.regCmp then v &&& Config.flagsUsed else if j = Config.regZero then 0 else v)
      else readReg i s := by
  by_cases e : i = j
  · subst e
    rw [if_pos rfl]
    rcases regIdx_cases i with h | h | h
    · have hcmp : i ≠ Config.regCmp := fun e => absurd (e ▸ h) (by decide)
      have hzero : i ≠ Config.regZero := fun e => absurd (e ▸ h) (by decide)
      rw [if_neg hcmp, if_neg hzero, readReg_cell h, writeReg_cell _ _ _ _ h, if_pos rfl]
    · subst h
      rw [if_pos rfl, readReg_cmp, writeReg_flags, if_pos rfl]
    · subst h
      rw [if_neg (by decide), if_pos rfl, readReg_zero]
  · rw [if_neg e]
    rcases regIdx_cases i with h | h | h
    · rw [readReg_cell h, readReg_cell h, writeReg_cell _ _ _ _ h, if_neg (fun e' => e (BitVec.eq_of_toNat_eq e'))]
    · subst h
      rw [readReg_cmp, readReg_cmp, writeReg_flags, if_neg (Ne.symm e)]
    · subst h
      rw [readReg_zero, readReg_zero]

/-- The bits of `FLAGS` that do not exist stay 0 over a register write (R25, R30). -/
theorem writeReg_flagsLegal {i : RegIdx} {v : Byte} {s : State} (h : s.flags &&& ~~~Config.flagsUsed = 0) :
    (writeReg i v s).flags &&& ~~~Config.flagsUsed = 0 := by
  rw [writeReg_flags]
  split
  · revert v; decide
  · exact h

end Sys2Proof.Machine
end

