-- ==== Sys2Proof/Laws/Exec.lean ====
section
/-! SUPPORT. What running an instruction can do to the state, said once for all of them: one of the nine shapes below. Later
proofs about every instruction go through `exec_effect` and never unfold `exec`. -/

namespace Sys2Proof.Machine

/-- The shapes of an instruction's next state. The function on `FLAGS` in a shape keeps the bits that do not exist at 0. -/
inductive ExecEffect (s : State) : State → Prop where
  /-- A data address does not exist: the fault, and nothing else (R184, R187). -/
  | dataFault : ExecEffect s (haltWith .dataOutOfRange s)
  /-- `HLT` (R170). -/
  | halt : ExecEffect s (haltWith .haltInstruction s)
  /-- A register write and no flag: `LDR`, `DIV`, the logic, `STR` to a register. -/
  | write (r : RegIdx) (v : Byte) : ExecEffect s (advance (writeReg r v s))
  /-- A register write and then a flag update: `ADD`, `SUB`, `MUL` (R33). -/
  | writeFlag (r : RegIdx) (v : Byte) (f : Byte → Byte)
      (legal : ∀ x : Byte, x &&& ~~~Config.flagsUsed = 0 → f x &&& ~~~Config.flagsUsed = 0) :
      ExecEffect s (advance (setFlags (f (writeReg r v s).flags) (writeReg r v s)))
  /-- A flag update alone: `CMP`, and `DIV` by zero. -/
  | flag (f : Byte → Byte) (legal : ∀ x : Byte, x &&& ~~~Config.flagsUsed = 0 → f x &&& ~~~Config.flagsUsed = 0) :
      ExecEffect s (advance (setFlags (f s.flags) s))
  /-- `STR` to memory, at an address that exists. -/
  | store (a : Nat) (v : Byte) (ha : a < Config.memSize) : ExecEffect s (advance (storeByte a v s))
  /-- `PRINT`. -/
  | print (v : Byte) : ExecEffect s (advance (emit v s))
  /-- A jump that is taken. -/
  | jump (t : Half) : ExecEffect s (jumpTo t s)
  /-- A jump that is not taken. -/
  | fallThrough : ExecEffect s (advance s)

/-- An answer that is a next state of one of the shapes. -/
def HasEffect (s : State) (r : Result) : Prop := ∃ t, r = .next t ∧ ExecEffect s t

theorem withSource_hasEffect (op : Operand) (s : State) {f : Nat → State} (h : ∀ b, ExecEffect s (advance (f b))) :
    HasEffect s (withSource op s f) := by
  rcases withSource_cases op s f with ⟨b, -, e⟩ | ⟨-, e⟩
  · exact ⟨_, e, h b⟩
  · exact ⟨_, e, .dataFault⟩

theorem opLdr_effect (rd : RegIdx) (op : Operand) (s : State) : HasEffect s (opLdr rd op s) :=
  withSource_hasEffect op s fun _ => .write rd _

theorem opStr_effect (rs : RegIdx) (dest : Operand) (s : State) : HasEffect s (opStr rs dest s) := by
  rcases storeTo_cases dest (readReg rs s) s with ⟨a, -, ha, e⟩ | ⟨r, -, e⟩ | ⟨a, -, -, e⟩
  · exact ⟨_, e, .store a _ ha⟩
  · exact ⟨_, e, .write r _⟩
  · exact ⟨_, e, .dataFault⟩

theorem arithmetic_effect (wideOf : Int → Int → Int) {raise : Int → Byte → Byte}
    (legal : ∀ (w : Int) (x : Byte), x &&& ~~~Config.flagsUsed = 0 → raise w x &&& ~~~Config.flagsUsed = 0)
    (rd : RegIdx) (op : Operand) (s : State) : HasEffect s (arithmetic wideOf raise rd op s) :=
  withSource_hasEffect op s fun b => .writeFlag rd _ (raise (wideOf (readReg rd s).toNat b)) (legal _)

theorem logic_effect (resultOf : Byte → Byte → Byte) (rd : RegIdx) (op : Operand) (s : State) :
    HasEffect s (logic resultOf rd op s) :=
  withSource_hasEffect op s fun _ => .write rd _

theorem opDiv_effect (rd : RegIdx) (op : Operand) (s : State) : HasEffect s (opDiv rd op s) := by
  refine withSource_hasEffect op s fun b => ?_
  split
  · exact .flag raiseDivideByZero fun _ => raiseDivideByZero_legal
  · exact .write rd _

theorem opCmp_effect (ra : RegIdx) (op : Operand) (s : State) : HasEffect s (opCmp ra op s) :=
  withSource_hasEffect op s fun b => .flag (compareFlags ((readReg ra s).toNat - b)) fun _ => compareFlags_legal _

theorem jumpOnCode_effect (codes : List (BitVec 2)) (t : Target) (s : State) : HasEffect s (jumpOnCode codes t s) := by
  unfold jumpOnCode
  split
  · exact ⟨_, rfl, .jump _⟩
  · exact ⟨_, rfl, .fallThrough⟩

theorem opPrint_effect (op : Operand) (s : State) : HasEffect s (opPrint op s) :=
  withSource_hasEffect op s fun _ => .print _

/-- Every instruction answers a next state of one of the shapes. -/
theorem exec_effect (i : Instr) (s : State) : HasEffect s (exec i s) := by
  have overflow := fun (w : Int) (x : Byte) => raiseOverflow_legal w (f := x)
  have underflow := fun (w : Int) (x : Byte) => raiseUnderflow_legal w (f := x)
  cases i with
  | hlt => exact ⟨_, rfl, .halt⟩
  | ldrLit rd v => exact opLdr_effect rd (.lit v) s
  | ldrReg rd r1 => exact opLdr_effect rd (.reg r1) s
  | ldrRel rd rb off => exact opLdr_effect rd (.rel rb off) s
  | strLit rs v => exact opStr_effect rs (.lit v) s
  | strReg rs rt => exact opStr_effect rs (.reg rt) s
  | strRel rs rb off => exact opStr_effect rs (.rel rb off) s
  | addLit rd v => exact arithmetic_effect _ overflow rd (.lit v) s
  | addReg rd r1 => exact arithmetic_effect _ overflow rd (.reg r1) s
  | addRel rd rb off => exact arithmetic_effect _ overflow rd (.rel rb off) s
  | subLit rd v => exact arithmetic_effect _ underflow rd (.lit v) s
  | subReg rd r1 => exact arithmetic_effect _ underflow rd (.reg r1) s
  | subRel rd rb off => exact arithmetic_effect _ underflow rd (.rel rb off) s
  | mulLit rd v => exact arithmetic_effect _ overflow rd (.lit v) s
  | mulReg rd r1 => exact arithmetic_effect _ overflow rd (.reg r1) s
  | mulRel rd rb off => exact arithmetic_effect _ overflow rd (.rel rb off) s
  | divLit rd v => exact opDiv_effect rd (.lit v) s
  | divReg rd r1 => exact opDiv_effect rd (.reg r1) s
  | divRel rd rb off => exact opDiv_effect rd (.rel rb off) s
  | xorLit rd v => exact logic_effect _ rd (.lit v) s
  | xorReg rd r1 => exact logic_effect _ rd (.reg r1) s
  | xorRel rd rb off => exact logic_effect _ rd (.rel rb off) s
  | andLit rd v => exact logic_effect _ rd (.lit v) s
  | andReg rd r1 => exact logic_effect _ rd (.reg r1) s
  | andRel rd rb off => exact logic_effect _ rd (.rel rb off) s
  | orLit rd v => exact logic_effect _ rd (.lit v) s
  | orReg rd r1 => exact logic_effect _ rd (.reg r1) s
  | orRel rd rb off => exact logic_effect _ rd (.rel rb off) s
  | notLit rd v => exact logic_effect (fun _ b => ~~~b) rd (.lit v) s
  | notReg rd r1 => exact logic_effect (fun _ b => ~~~b) rd (.reg r1) s
  | notRel rd rb off => exact logic_effect (fun _ b => ~~~b) rd (.rel rb off) s
  | cmpLit ra v => exact opCmp_effect ra (.lit v) s
  | cmpReg ra r1 => exact opCmp_effect ra (.reg r1) s
  | cmpRel ra rb off => exact opCmp_effect ra (.rel rb off) s
  | jmpLit v => exact ⟨_, rfl, .jump _⟩
  | jmpPcr d => exact ⟨_, rfl, .jump _⟩
  | jmplLit v => exact jumpOnCode_effect _ (.lit v) s
  | jmplPcr d => exact jumpOnCode_effect _ (.pcr d) s
  | jmpgLit v => exact jumpOnCode_effect _ (.lit v) s
  | jmpgPcr d => exact jumpOnCode_effect _ (.pcr d) s
  | jmpleLit v => exact jumpOnCode_effect _ (.lit v) s
  | jmplePcr d => exact jumpOnCode_effect _ (.pcr d) s
  | jmpgeLit v => exact jumpOnCode_effect _ (.lit v) s
  | jmpgePcr d => exact jumpOnCode_effect _ (.pcr d) s
  | printLit v => exact opPrint_effect (.lit v) s
  | printReg rs => exact opPrint_effect (.reg rs) s
  | printRel rb off => exact opPrint_effect (.rel rb off) s

/-- The operand an instruction reads as a source, if it reads one: every form of `LDR`, the ALU, `CMP` and `PRINT` (R107). -/
def sourceOf (i : Instr) : Option Operand :=
  match i with
  | .ldrLit _ v => some (.lit v)
  | .ldrReg _ r1 => some (.reg r1)
  | .ldrRel _ rb off => some (.rel rb off)
  | .addLit _ v => some (.lit v)
  | .addReg _ r1 => some (.reg r1)
  | .addRel _ rb off => some (.rel rb off)
  | .subLit _ v => some (.lit v)
  | .subReg _ r1 => some (.reg r1)
  | .subRel _ rb off => some (.rel rb off)
  | .mulLit _ v => some (.lit v)
  | .mulReg _ r1 => some (.reg r1)
  | .mulRel _ rb off => some (.rel rb off)
  | .divLit _ v => some (.lit v)
  | .divReg _ r1 => some (.reg r1)
  | .divRel _ rb off => some (.rel rb off)
  | .xorLit _ v => some (.lit v)
  | .xorReg _ r1 => some (.reg r1)
  | .xorRel _ rb off => some (.rel rb off)
  | .andLit _ v => some (.lit v)
  | .andReg _ r1 => some (.reg r1)
  | .andRel _ rb off => some (.rel rb off)
  | .orLit _ v => some (.lit v)
  | .orReg _ r1 => some (.reg r1)
  | .orRel _ rb off => some (.rel rb off)
  | .notLit _ v => some (.lit v)
  | .notReg _ r1 => some (.reg r1)
  | .notRel _ rb off => some (.rel rb off)
  | .cmpLit _ v => some (.lit v)
  | .cmpReg _ r1 => some (.reg r1)
  | .cmpRel _ rb off => some (.rel rb off)
  | .printLit v => some (.lit v)
  | .printReg rs => some (.reg rs)
  | .printRel rb off => some (.rel rb off)
  | _ => none

/-- The effect of an instruction that reads a source, on the value read and before the advance. -/
def sourceEffect (i : Instr) (b : Nat) (s : State) : State :=
  let wide (f : Int → Int → Int) (raise : Int → Byte → Byte) (rd : RegIdx) : State :=
    let w := f (readReg rd s).toNat b
    setFlags (raise w (writeReg rd (narrow w) s).flags) (writeReg rd (narrow w) s)
  let low (f : Byte → Byte → Byte) (rd : RegIdx) : State := writeReg rd (f (readReg rd s) (lowByte b)) s
  match i with
  | .ldrLit rd _ | .ldrReg rd _ | .ldrRel rd _ _ => writeReg rd (lowByte b) s
  | .addLit rd _ | .addReg rd _ | .addRel rd _ _ => wide (· + ·) raiseOverflow rd
  | .subLit rd _ | .subReg rd _ | .subRel rd _ _ => wide (· - ·) raiseUnderflow rd
  | .mulLit rd _ | .mulReg rd _ | .mulRel rd _ _ => wide (· * ·) raiseOverflow rd
  | .divLit rd _ | .divReg rd _ | .divRel rd _ _ =>
    if b = 0 then setFlags (raiseDivideByZero s.flags) s else writeReg rd (BitVec.ofNat 8 ((readReg rd s).toNat / b)) s
  | .xorLit rd _ | .xorReg rd _ | .xorRel rd _ _ => low (· ^^^ ·) rd
  | .andLit rd _ | .andReg rd _ | .andRel rd _ _ => low (· &&& ·) rd
  | .orLit rd _ | .orReg rd _ | .orRel rd _ _ => low (· ||| ·) rd
  | .notLit rd _ | .notReg rd _ | .notRel rd _ _ => low (fun _ x => ~~~x) rd
  | .cmpLit ra _ | .cmpReg ra _ | .cmpRel ra _ _ => setFlags (compareFlags ((readReg ra s).toNat - b) s.flags) s
  | .printLit _ | .printReg _ | .printRel _ _ => emit (lowByte b) s
  | _ => s

/-- Every instruction that reads a source is the shared operation on its operand and its effect. -/
theorem exec_of_source {i : Instr} {op : Operand} (h : sourceOf i = some op) (s : State) :
    exec i s = withSource op s fun b => sourceEffect i b s := by
  cases i <;> simp only [sourceOf, reduceCtorEq, Option.some.injEq] at h <;> subst h <;> rfl

end Sys2Proof.Machine
end

