-- ==== Sys2Proof/Laws/PerInstr.lean ====
section
/-! SUPPORT. The statements about every instruction as syntax, one lemma for each constructor. -/

namespace Sys2Proof.Laws.HeaderEncoded

/-- The word an instruction is encoded as starts with its header, and the header is one the machine accepts (R71, R82,
R85). -/
def Statement (i : Instr) : Prop := field (encode i) 27 5 = i.header.opc ∧ field (encode i) 24 3 = i.header.tag ∧ i.WellFormed

theorem hlt : Statement .hlt := ⟨packN_opc _, packN_tag _, rfl⟩

theorem ldrLit (r : RegIdx) (v : Half) : Statement (.ldrLit r v) :=
  ⟨packBLit_opc _ _ _, packBLit_tag _ _ _, rfl⟩

theorem ldrReg (r r1 : RegIdx) : Statement (.ldrReg r r1) :=
  ⟨packBReg_opc _ _ _, packBReg_tag _ _ _, rfl⟩

theorem ldrRel (r rb : RegIdx) (off : Half) : Statement (.ldrRel r rb off) :=
  ⟨packBRel_opc _ _ _ _, packBRel_tag _ _ _ _, rfl⟩

theorem strLit (r : RegIdx) (v : Half) : Statement (.strLit r v) :=
  ⟨packBLit_opc _ _ _, packBLit_tag _ _ _, rfl⟩

theorem strReg (r r1 : RegIdx) : Statement (.strReg r r1) :=
  ⟨packBReg_opc _ _ _, packBReg_tag _ _ _, rfl⟩

theorem strRel (r rb : RegIdx) (off : Half) : Statement (.strRel r rb off) :=
  ⟨packBRel_opc _ _ _ _, packBRel_tag _ _ _ _, rfl⟩

theorem addLit (r : RegIdx) (v : Half) : Statement (.addLit r v) :=
  ⟨packBLit_opc _ _ _, packBLit_tag _ _ _, rfl⟩

theorem addReg (r r1 : RegIdx) : Statement (.addReg r r1) :=
  ⟨packBReg_opc _ _ _, packBReg_tag _ _ _, rfl⟩

theorem addRel (r rb : RegIdx) (off : Half) : Statement (.addRel r rb off) :=
  ⟨packBRel_opc _ _ _ _, packBRel_tag _ _ _ _, rfl⟩

theorem subLit (r : RegIdx) (v : Half) : Statement (.subLit r v) :=
  ⟨packBLit_opc _ _ _, packBLit_tag _ _ _, rfl⟩

theorem subReg (r r1 : RegIdx) : Statement (.subReg r r1) :=
  ⟨packBReg_opc _ _ _, packBReg_tag _ _ _, rfl⟩

theorem subRel (r rb : RegIdx) (off : Half) : Statement (.subRel r rb off) :=
  ⟨packBRel_opc _ _ _ _, packBRel_tag _ _ _ _, rfl⟩

theorem mulLit (r : RegIdx) (v : Half) : Statement (.mulLit r v) :=
  ⟨packBLit_opc _ _ _, packBLit_tag _ _ _, rfl⟩

theorem mulReg (r r1 : RegIdx) : Statement (.mulReg r r1) :=
  ⟨packBReg_opc _ _ _, packBReg_tag _ _ _, rfl⟩

theorem mulRel (r rb : RegIdx) (off : Half) : Statement (.mulRel r rb off) :=
  ⟨packBRel_opc _ _ _ _, packBRel_tag _ _ _ _, rfl⟩

theorem divLit (r : RegIdx) (v : Half) : Statement (.divLit r v) :=
  ⟨packBLit_opc _ _ _, packBLit_tag _ _ _, rfl⟩

theorem divReg (r r1 : RegIdx) : Statement (.divReg r r1) :=
  ⟨packBReg_opc _ _ _, packBReg_tag _ _ _, rfl⟩

theorem divRel (r rb : RegIdx) (off : Half) : Statement (.divRel r rb off) :=
  ⟨packBRel_opc _ _ _ _, packBRel_tag _ _ _ _, rfl⟩

theorem xorLit (r : RegIdx) (v : Half) : Statement (.xorLit r v) :=
  ⟨packBLit_opc _ _ _, packBLit_tag _ _ _, rfl⟩

theorem xorReg (r r1 : RegIdx) : Statement (.xorReg r r1) :=
  ⟨packBReg_opc _ _ _, packBReg_tag _ _ _, rfl⟩

theorem xorRel (r rb : RegIdx) (off : Half) : Statement (.xorRel r rb off) :=
  ⟨packBRel_opc _ _ _ _, packBRel_tag _ _ _ _, rfl⟩

theorem andLit (r : RegIdx) (v : Half) : Statement (.andLit r v) :=
  ⟨packBLit_opc _ _ _, packBLit_tag _ _ _, rfl⟩

theorem andReg (r r1 : RegIdx) : Statement (.andReg r r1) :=
  ⟨packBReg_opc _ _ _, packBReg_tag _ _ _, rfl⟩

theorem andRel (r rb : RegIdx) (off : Half) : Statement (.andRel r rb off) :=
  ⟨packBRel_opc _ _ _ _, packBRel_tag _ _ _ _, rfl⟩

theorem orLit (r : RegIdx) (v : Half) : Statement (.orLit r v) :=
  ⟨packBLit_opc _ _ _, packBLit_tag _ _ _, rfl⟩

theorem orReg (r r1 : RegIdx) : Statement (.orReg r r1) :=
  ⟨packBReg_opc _ _ _, packBReg_tag _ _ _, rfl⟩

theorem orRel (r rb : RegIdx) (off : Half) : Statement (.orRel r rb off) :=
  ⟨packBRel_opc _ _ _ _, packBRel_tag _ _ _ _, rfl⟩

theorem notLit (r : RegIdx) (v : Half) : Statement (.notLit r v) :=
  ⟨packBLit_opc _ _ _, packBLit_tag _ _ _, rfl⟩

theorem notReg (r r1 : RegIdx) : Statement (.notReg r r1) :=
  ⟨packBReg_opc _ _ _, packBReg_tag _ _ _, rfl⟩

theorem notRel (r rb : RegIdx) (off : Half) : Statement (.notRel r rb off) :=
  ⟨packBRel_opc _ _ _ _, packBRel_tag _ _ _ _, rfl⟩

theorem cmpLit (r : RegIdx) (v : Half) : Statement (.cmpLit r v) :=
  ⟨packBLit_opc _ _ _, packBLit_tag _ _ _, rfl⟩

theorem cmpReg (r r1 : RegIdx) : Statement (.cmpReg r r1) :=
  ⟨packBReg_opc _ _ _, packBReg_tag _ _ _, rfl⟩

theorem cmpRel (r rb : RegIdx) (off : Half) : Statement (.cmpRel r rb off) :=
  ⟨packBRel_opc _ _ _ _, packBRel_tag _ _ _ _, rfl⟩

theorem jmpLit (v : Half) : Statement (.jmpLit v) :=
  ⟨packUValue_opc _ _, packUValue_tag _ _, rfl⟩

theorem jmpPcr (d : Half) : Statement (.jmpPcr d) :=
  ⟨packUValue_opc _ _, packUValue_tag _ _, rfl⟩

theorem jmplLit (v : Half) : Statement (.jmplLit v) :=
  ⟨packUValue_opc _ _, packUValue_tag _ _, rfl⟩

theorem jmplPcr (d : Half) : Statement (.jmplPcr d) :=
  ⟨packUValue_opc _ _, packUValue_tag _ _, rfl⟩

theorem jmpgLit (v : Half) : Statement (.jmpgLit v) :=
  ⟨packUValue_opc _ _, packUValue_tag _ _, rfl⟩

theorem jmpgPcr (d : Half) : Statement (.jmpgPcr d) :=
  ⟨packUValue_opc _ _, packUValue_tag _ _, rfl⟩

theorem jmpleLit (v : Half) : Statement (.jmpleLit v) :=
  ⟨packUValue_opc _ _, packUValue_tag _ _, rfl⟩

theorem jmplePcr (d : Half) : Statement (.jmplePcr d) :=
  ⟨packUValue_opc _ _, packUValue_tag _ _, rfl⟩

theorem jmpgeLit (v : Half) : Statement (.jmpgeLit v) :=
  ⟨packUValue_opc _ _, packUValue_tag _ _, rfl⟩

theorem jmpgePcr (d : Half) : Statement (.jmpgePcr d) :=
  ⟨packUValue_opc _ _, packUValue_tag _ _, rfl⟩

theorem printLit (v : Half) : Statement (.printLit v) :=
  ⟨packUValue_opc _ _, packUValue_tag _ _, rfl⟩

theorem printReg (rs : RegIdx) : Statement (.printReg rs) :=
  ⟨packUReg_opc _ _, packUReg_tag _ _, rfl⟩

theorem printRel (rb : RegIdx) (off : Half) : Statement (.printRel rb off) :=
  ⟨packURel_opc _ _ _, packURel_tag _ _ _, rfl⟩

end Sys2Proof.Laws.HeaderEncoded
end

