-- ==== Sys2Proof/Laws/Step.lean ====
section
/-! SUPPORT. Everything fetch and step can do (spec/40_step_and_operands.md R100, R102), and that each update of the state
keeps each part of the invariant. -/

namespace Sys2Proof.Machine

theorem fetchInRange_iff (s : State) : fetchInRange s = true ↔ s.pc.toNat ≤ 4092 := by
  rw [fetchInRange, decide_eq_true_iff, Config.instrBytes, Config.memSize]
  omega

theorem fetch_out_of_range {s : State} (h : 4092 < s.pc.toNat) : fetch s = .error .fetchOutOfRange := by
  rw [fetch, if_neg (by rw [fetchInRange_iff]; omega)]

/-- Within range, fetch is the decoder on the word at `pc`. -/
theorem fetch_in_range {s : State} (h : s.pc.toNat ≤ 4092) :
    fetch s =
      match decodeWord (fetchWord s) with
      | .ok i => .ok i
      | .error b => .error (badWordCause b) := by
  cases hd : decodeWord (fetchWord s) <;> simp only [fetch, if_pos ((fetchInRange_iff s).mpr h), hd]

theorem fetch_ok {s : State} {i : Instr} (h : fetch s = .ok i) :
    s.pc.toNat ≤ 4092 ∧ decodeWord (fetchWord s) = .ok i := by
  rcases Nat.lt_or_ge 4092 s.pc.toNat with hr | hr
  · rw [fetch_out_of_range hr] at h; cases h
  · rw [fetch_in_range hr] at h
    refine ⟨hr, ?_⟩
    split at h
    · next e => rw [e]; cases h; rfl
    · cases h

/-- A fetch that fails gives one of the three fetch and decode causes, all of them faults. -/
theorem fetch_error {s : State} {c : Cause} (h : fetch s = .error c) :
    c = .fetchOutOfRange ∨ c = .unknownOpcode ∨ c = .illegalMode := by
  rcases Nat.lt_or_ge 4092 s.pc.toNat with hr | hr
  · rw [fetch_out_of_range hr] at h; cases h; exact .inl rfl
  · rw [fetch_in_range hr] at h
    split at h
    · cases h
    · next b _ => cases h; cases b <;> simp [badWordCause]

theorem step_halted {s : State} (h : s.run = .halted) : step s = .next s := by
  unfold step; rw [h]; rfl

theorem step_fault {s : State} {c : Cause} (h : s.run = .running) (hf : fetch s = .error c) :
    step s = .next (haltWith c s) := by
  unfold step; rw [h]; simp only [hf]; rfl

theorem step_exec {s : State} {i : Instr} (h : s.run = .running) (hf : fetch s = .ok i) : step s = exec i s := by
  unfold step; rw [h]; simp only [hf]

/-- Everything a step can do: stay halted, take a fetch or decode fault, or run an instruction. -/
theorem step_cases (s : State) :
    (s.run = .halted ∧ step s = .next s) ∨
      (∃ c, s.run = .running ∧ fetch s = .error c ∧ step s = .next (haltWith c s)) ∨
      (∃ i t, s.run = .running ∧ fetch s = .ok i ∧ step s = exec i s ∧ exec i s = .next t ∧ ExecEffect s t) := by
  cases h : s.run with
  | halted => exact .inl ⟨rfl, step_halted h⟩
  | running =>
    cases hf : fetch s with
    | error c => exact .inr (.inl ⟨c, rfl, rfl, step_fault h hf⟩)
    | ok i =>
      obtain ⟨t, e, ht⟩ := exec_effect i s
      exact .inr (.inr ⟨i, t, rfl, rfl, step_exec h hf, e, ht⟩)

/-- A state halted with a cause meets the rule that relates the two (R36). -/
theorem haltWith_causeLegal {c : Cause} (h : c ≠ .none) (s : State) : (haltWith c s).causeLegal := by
  constructor
  · intro e; cases e
  · intro e; exact absurd e h

/-- Updates that leave `STATE` and `CAUSE` alone keep the rule that relates them. -/
theorem causeLegal_of_same {s t : State} (hr : t.run = s.run) (hc : t.cause = s.cause) (h : s.causeLegal) :
    t.causeLegal := by
  unfold State.causeLegal
  rw [hr, hc]
  exact h

/-- The canonical form of memory is kept by a store at an address that exists. -/
theorem storeByte_wf {s : State} (h : s.mem.wf = true) {a : Nat} (ha : a < Config.memSize) (v : Byte) :
    (storeByte a v s).mem.wf = true :=
  memWrite_wf h ha v

/-- The memory of a loaded image is in canonical form. -/
theorem hostLoad_wf {image : List Byte} {s : State} (h : hostLoad image = some s) : s.mem.wf = true := by
  unfold hostLoad at h
  split at h
  · rename_i ha
    rw [imageAccepted, Bool.and_eq_true, decide_eq_true_iff, decide_eq_true_iff] at ha
    cases h
    exact memWriteAll_wf rfl ha.2
  · cases h

end Sys2Proof.Machine
end

