-- ==== Sys2Proof/Tests/Slice0.lean ====
section
/-! SUPPORT. The model's own tests. Expected results are those of spec/95_test_vectors.md, whose row ids (V-…) the docstrings
cite, or words written out from the formats of spec/30_encoding.md R74 to R80; none was taken from the model. The last
part holds, for every obligation with a hypothesis, a witness that meets it. -/

namespace Sys2Proof.Tests

open Sys2Proof.Machine Sys2Proof.Claims

/-! ### Well-formedness refuses an illegal header (R82) -/

theorem test_wf_refuses_undefined_opcode : Header.legal ⟨18, 0⟩ = false ∧ Header.legal ⟨31, 2⟩ = false := by decide

theorem test_wf_refuses_class_b_tag : Header.legal ⟨1, 3⟩ = false ∧ Header.legal ⟨11, 7⟩ = false := by decide

theorem test_wf_refuses_jump_tag :
    Header.legal ⟨12, 1⟩ = false ∧ Header.legal ⟨14, 4⟩ = false ∧ Header.legal ⟨16, 2⟩ = false := by
  decide

theorem test_wf_refuses_print_tag : Header.legal ⟨17, 3⟩ = false := by decide

theorem test_wf_accepts_the_legal_tags :
    Header.legal ⟨0, 7⟩ = true ∧ Header.legal ⟨11, 2⟩ = true ∧ Header.legal ⟨12, 3⟩ = true ∧ Header.legal ⟨17, 2⟩ = true := by
  decide

/-! ### Decoding: every constructor from a word written out field by field, ignored bits not all 0 -/

theorem test_decode_hlt : decodeWord 0b00000_101_0001_0010_0011_0100_0101_0110 = .ok .hlt := by decide

theorem test_decode_ldr :
    decodeWord 0b00001_000_0101_0001001000110100_1111 = .ok (.ldrLit 5 0x1234) ∧
      decodeWord 0b00001_001_0110_1001_1010010111000011 = .ok (.ldrReg 6 9) ∧
      decodeWord 0b00001_010_0011_1100_1111111011011100 = .ok (.ldrRel 3 12 0xFEDC) := by
  decide

theorem test_decode_str :
    decodeWord 0b00010_000_0101_0001001000110100_1111 = .ok (.strLit 5 0x1234) ∧
      decodeWord 0b00010_001_0110_1001_1010010111000011 = .ok (.strReg 6 9) ∧
      decodeWord 0b00010_010_0011_1100_1111111011011100 = .ok (.strRel 3 12 0xFEDC) := by
  decide

theorem test_decode_add :
    decodeWord 0b00011_000_0101_0001001000110100_1111 = .ok (.addLit 5 0x1234) ∧
      decodeWord 0b00011_001_0110_1001_1010010111000011 = .ok (.addReg 6 9) ∧
      decodeWord 0b00011_010_0011_1100_1111111011011100 = .ok (.addRel 3 12 0xFEDC) := by
  decide

theorem test_decode_sub :
    decodeWord 0b00100_000_0101_0001001000110100_1111 = .ok (.subLit 5 0x1234) ∧
      decodeWord 0b00100_001_0110_1001_1010010111000011 = .ok (.subReg 6 9) ∧
      decodeWord 0b00100_010_0011_1100_1111111011011100 = .ok (.subRel 3 12 0xFEDC) := by
  decide

theorem test_decode_mul :
    decodeWord 0b00101_000_0101_0001001000110100_1111 = .ok (.mulLit 5 0x1234) ∧
      decodeWord 0b00101_001_0110_1001_1010010111000011 = .ok (.mulReg 6 9) ∧
      decodeWord 0b00101_010_0011_1100_1111111011011100 = .ok (.mulRel 3 12 0xFEDC) := by
  decide

theorem test_decode_div :
    decodeWord 0b00110_000_0101_0001001000110100_1111 = .ok (.divLit 5 0x1234) ∧
      decodeWord 0b00110_001_0110_1001_1010010111000011 = .ok (.divReg 6 9) ∧
      decodeWord 0b00110_010_0011_1100_1111111011011100 = .ok (.divRel 3 12 0xFEDC) := by
  decide

theorem test_decode_xor :
    decodeWord 0b00111_000_0101_0001001000110100_1111 = .ok (.xorLit 5 0x1234) ∧
      decodeWord 0b00111_001_0110_1001_1010010111000011 = .ok (.xorReg 6 9) ∧
      decodeWord 0b00111_010_0011_1100_1111111011011100 = .ok (.xorRel 3 12 0xFEDC) := by
  decide

theorem test_decode_and :
    decodeWord 0b01000_000_0101_0001001000110100_1111 = .ok (.andLit 5 0x1234) ∧
      decodeWord 0b01000_001_0110_1001_1010010111000011 = .ok (.andReg 6 9) ∧
      decodeWord 0b01000_010_0011_1100_1111111011011100 = .ok (.andRel 3 12 0xFEDC) := by
  decide

theorem test_decode_or :
    decodeWord 0b01001_000_0101_0001001000110100_1111 = .ok (.orLit 5 0x1234) ∧
      decodeWord 0b01001_001_0110_1001_1010010111000011 = .ok (.orReg 6 9) ∧
      decodeWord 0b01001_010_0011_1100_1111111011011100 = .ok (.orRel 3 12 0xFEDC) := by
  decide

theorem test_decode_not :
    decodeWord 0b01010_000_0101_0001001000110100_1111 = .ok (.notLit 5 0x1234) ∧
      decodeWord 0b01010_001_0110_1001_1010010111000011 = .ok (.notReg 6 9) ∧
      decodeWord 0b01010_010_0011_1100_1111111011011100 = .ok (.notRel 3 12 0xFEDC) := by
  decide

theorem test_decode_cmp :
    decodeWord 0b01011_000_0101_0001001000110100_1111 = .ok (.cmpLit 5 0x1234) ∧
      decodeWord 0b01011_001_0110_1001_1010010111000011 = .ok (.cmpReg 6 9) ∧
      decodeWord 0b01011_010_0011_1100_1111111011011100 = .ok (.cmpRel 3 12 0xFEDC) := by
  decide

theorem test_decode_jmp :
    decodeWord 0b01100_000_1000000000000001_11111111 = .ok (.jmpLit 0x8001) ∧
      decodeWord 0b01100_011_1111111111110100_00001111 = .ok (.jmpPcr 0xFFF4) := by
  decide

theorem test_decode_jmpl :
    decodeWord 0b01101_000_1000000000000001_11111111 = .ok (.jmplLit 0x8001) ∧
      decodeWord 0b01101_011_1111111111110100_00001111 = .ok (.jmplPcr 0xFFF4) := by
  decide

theorem test_decode_jmpg :
    decodeWord 0b01110_000_1000000000000001_11111111 = .ok (.jmpgLit 0x8001) ∧
      decodeWord 0b01110_011_1111111111110100_00001111 = .ok (.jmpgPcr 0xFFF4) := by
  decide

theorem test_decode_jmple :
    decodeWord 0b01111_000_1000000000000001_11111111 = .ok (.jmpleLit 0x8001) ∧
      decodeWord 0b01111_011_1111111111110100_00001111 = .ok (.jmplePcr 0xFFF4) := by
  decide

theorem test_decode_jmpge :
    decodeWord 0b10000_000_1000000000000001_11111111 = .ok (.jmpgeLit 0x8001) ∧
      decodeWord 0b10000_011_1111111111110100_00001111 = .ok (.jmpgePcr 0xFFF4) := by
  decide


theorem test_decode_print :
    decodeWord 0b10001_000_1111111111111111_11111111 = .ok (.printLit 0xFFFF) ∧
      decodeWord 0b10001_001_0110_1010_0101_1100_0011_1111 = .ok (.printReg 6) ∧
      decodeWord 0b10001_010_0001_0010001101001111_1111 = .ok (.printRel 1 0x234F) := by
  decide

/-- The refused words of 95_test_vectors.md section 2.1. -/
theorem test_decode_refuses :
    decodeWord 0x61000000 = .error .illegalMode ∧ decodeWord 0x62000000 = .error .illegalMode ∧
      decodeWord 0x64000000 = .error .illegalMode ∧ decodeWord 0x0B000000 = .error .illegalMode ∧
      decodeWord 0x5FFFFFFF = .error .illegalMode ∧ decodeWord 0x8B000000 = .error .illegalMode ∧
      decodeWord 0x90000000 = .error .unknownOpcode ∧ decodeWord 0xFFFFFFFF = .error .unknownOpcode := by
  decide

/-- Instructions are four bytes, the most significant first (R51, R70). -/
theorem test_decode_bytes :
    decode [0x08, 0x10, 0x00, 0xA0] = .ok (.ldrLit 1 10) ∧ decode [0x08, 0x10, 0x00] = .error .notFourBytes := by
  decide

theorem test_decodeTableWord : decodeTableWord 32 0x5A1EFFFF = some (.cmpRel 1 14 0xFFFF) := by decide

/-- The image of program P1, 95_test_vectors.md section 3. -/
theorem test_encode_program_p1 :
    [Instr.ldrLit 1 10, .addLit 1 5, .printReg 1, .hlt].flatMap encodeBytes =
      [0x08, 0x10, 0x00, 0xA0, 0x18, 0x10, 0x00, 0x50, 0x89, 0x10, 0x00, 0x00, 0x00, 0x00, 0x00, 0x00] := by
  decide

/-! ### One step -/

/-- The state after reset with the given cells, `FLAGS` and memory bytes. -/
def before (cells : List (RegIdx × Byte)) (f : Byte) (bytes : List (Nat × Byte)) : State :=
  let s := cells.foldl (fun s c => writeReg c.1 c.2 s) State.reset
  { s with flags := f, mem := bytes.foldl (fun m b => memWrite m b.1 b.2) [] }

/-- `s` with `pc` at `p`. -/
def atPc (p : Half) (s : State) : State := { s with pc := p }

/-- What a look at the next state of a step shows. -/
def look {α : Type} (f : State → α) (r : Result) : Option α :=
  match r with
  | .next t => some (f t)
  | .fault _ => none
  | .refused _ => none

/-- One step on a word placed where the machine fetches. -/
def runWord (w : Nat) (s : State) : Result := step (s.withFetchWord 32 w)

/-- A register and `FLAGS`. -/
def regAndFlags (r : RegIdx) (t : State) : Byte × Byte := (readReg r t, t.flags)

/-- The cause and `pc`. -/
def causeAndPc (t : State) : Cause × Half := (t.cause, t.pc)

/-- V-LDR-2. -/
theorem test_ldr_literal_low_byte : look (readReg 1) (runWord 0x081012C0 (before [] 0 [])) = some 44 := by decide

/-- V-LDR-12. -/
theorem test_ldr_to_cmp : look State.flags (runWord 0x08E00FF0 (before [] 0 [])) = some 0x1F := by decide

/-- V-STR-7. -/
theorem test_str_relative :
    look (fun t => memRead t.mem 0x183) (runWord 0x12110180 (before [(1, 3)] 0 [])) = some 3 := by
  decide

/-- V-STR-10. -/
theorem test_str_over_itself :
    look (fun t => (memRead t.mem 0x200, t.pc)) (runWord 0x10F02000 (before [] 0 [])) = some (0, 0x204) := by
  decide

/-- V-ADD-9. -/
theorem test_add_to_cmp_then_flag : look State.flags (runWord 0x18E00FF0 (before [] 0x02 [])) = some 0x09 := by decide

/-- V-ADD-12. -/
theorem test_add_relative :
    look (regAndFlags 1) (runWord 0x1A120000 (before [(1, 10), (2, 16)] 0 [(16, 250)])) = some (4, 0x08) := by
  decide

/-- V-SUB-4. -/
theorem test_sub_whole_literal : look (regAndFlags 1) (runWord 0x201012C0 (before [(1, 5)] 0 [])) = some (217, 0x10) := by
  decide

/-- V-SUB-7. -/
theorem test_sub_keeps_equal :
    look (regAndFlags 1) (runWord 0x21120000 (before [(1, 3), (2, 5)] 0x01 [])) = some (254, 0x11) := by
  decide

/-- V-MUL-2. -/
theorem test_mul_255 : look (regAndFlags 1) (runWord 0x28100110 (before [(1, 15)] 0 [])) = some (255, 0) := by decide

/-- V-MUL-4. -/
theorem test_mul_overflow : look (regAndFlags 1) (runWord 0x29110000 (before [(1, 255)] 0 [])) = some (1, 0x08) := by decide

/-- V-DIV-3. -/
theorem test_div_rounds_toward_zero : look (regAndFlags 1) (runWord 0x30100020 (before [(1, 7)] 0x04 [])) = some (3, 0x04) := by
  decide

/-- V-DIV-1. -/
theorem test_div_by_zero :
    look (fun t => (regAndFlags 1 t, t.pc, t.run)) (runWord 0x30100000 (before [(1, 7)] 0 [])) =
      some ((7, 0x04), 0x204, .running) := by
  decide

/-- V-XOR-3. -/
theorem test_xor_low_byte : look (regAndFlags 1) (runWord 0x38112340 (before [(1, 0xFF)] 0 [])) = some (0xCB, 0) := by decide

/-- V-AND-3. -/
theorem test_and_keeps_flags :
    look (regAndFlags 1) (runWord 0x40100FF0 (before [(1, 0x5A)] 0x1F [])) = some (0x5A, 0x1F) := by
  decide

/-- V-OR-3. -/
theorem test_or_to_cmp : look State.flags (runWord 0x48E00030 (before [] 0x04 [])) = some 0x07 := by decide

/-- V-NOT-2. -/
theorem test_not_ignores_its_target : look (readReg 1) (runWord 0x50100000 (before [(1, 0x33)] 0 [])) = some 0xFF := by decide

/-- V-NOT-5. -/
theorem test_not_cmp : look State.flags (runWord 0x51EE0000 (before [] 0x05 [])) = some 0x1A := by decide

/-- V-CMP-7. -/
theorem test_cmp_whole_literal : look State.flags (runWord 0x581012C0 (before [(1, 44)] 0 [])) = some 0x02 := by decide

/-- V-CMP-11. -/
theorem test_cmp_keeps_high_flags : look State.flags (runWord 0x58100050 (before [(1, 5)] 0x1E [])) = some 0x1D := by decide

/-- The `pc` after a jump on each of the four compare codes, with bits 4..2 of `FLAGS` set. -/
def jumpRow (w : Nat) : List (Option Half) :=
  [0x1C, 0x1D, 0x1E, 0x1F].map fun f => look State.pc (runWord w (before [] f []))

/-- V-J-1 to V-J-4. -/
theorem test_jmp_codes : jumpRow 0x60030000 = [some 0x300, some 0x300, some 0x300, some 0x300] := by decide

/-- V-J-5 to V-J-8. -/
theorem test_jmpl_codes : jumpRow 0x68030000 = [some 0x204, some 0x204, some 0x300, some 0x204] := by decide

/-- V-J-9 to V-J-12. -/
theorem test_jmpg_codes : jumpRow 0x70030000 = [some 0x300, some 0x204, some 0x204, some 0x204] := by decide

/-- V-J-13 to V-J-16. -/
theorem test_jmple_codes : jumpRow 0x78030000 = [some 0x204, some 0x300, some 0x300, some 0x204] := by decide

/-- V-J-17 to V-J-20. -/
theorem test_jmpge_codes : jumpRow 0x80030000 = [some 0x300, some 0x300, some 0x204, some 0x204] := by decide

/-- V-J-25. -/
theorem test_jmp_backward_wraps : look State.pc (runWord 0x63FDFC00 (before [] 0 [])) = some 0xFFFC := by decide

/-- V-J-33. -/
theorem test_jmpg_backward : look State.pc (runWord 0x73FFF400 (atPc 0x210 (before [] 0 []))) = some 0x204 := by decide

/-- V-HLT-1. -/
theorem test_hlt :
    look (fun t => (regAndFlags 1 t, causeAndPc t, t.run)) (runWord 0 (before [(1, 5)] 0x1F [])) =
      some ((5, 0x1F), (.haltInstruction, 0x200), .halted) := by
  decide

/-- V-PR-2. -/
theorem test_print_low_byte : look State.out (runWord 0x88012C00 (before [] 0 [])) = some [44] := by decide

/-- V-PR-6. -/
theorem test_print_its_own_first_byte : look State.out (runWord 0x8AF02000 (before [] 0 [])) = some [138] := by decide

/-! ### Faults (95_test_vectors.md section 2.10) -/

/-- V-F-1. -/
theorem test_fault_fetch : look causeAndPc (step (atPc 0xFFD State.reset)) = some (.fetchOutOfRange, 0xFFD) := by decide

/-- V-F-4. -/
theorem test_fault_opcode_first : look causeAndPc (runWord 0xFB1EFFFF State.reset) = some (.unknownOpcode, 0x200) := by decide

/-- V-F-7. -/
theorem test_fault_mode_before_address : look causeAndPc (runWord 0x0B1EFFFF State.reset) = some (.illegalMode, 0x200) := by
  decide

/-- V-LDR-9. -/
theorem test_fault_address_does_not_wrap :
    look (fun t => (causeAndPc t, readReg 2 t)) (runWord 0x0A21FFF8 (before [(1, 9)] 0 [])) =
      some ((.dataOutOfRange, 0x200), 0) := by
  decide

/-- V-CMP-15. -/
theorem test_fault_keeps_flags :
    look (fun t => (causeAndPc t, t.flags)) (runWord 0x5A1EFFFF (before [] 0x01 [])) =
      some ((.dataOutOfRange, 0x200), 0x01) := by
  decide

/-! ### The host (R211) -/

/-- V-F-9. -/
theorem test_load_refuses_half_a_word : hostLoad [0, 0, 0, 0, 0, 0] = none := by decide

/-- V-F-10 and V-F-11. -/
theorem test_load_limit : imageAccepted 3588 = false ∧ imageAccepted 3584 = true := by decide

/-- The first word of program P1 lands at `LOAD_BASE`, and nothing below it. -/
theorem test_load_places_the_image :
    (hostLoad [0x08, 0x10, 0x00, 0xA0]).map (fun s => (memReadWord s.mem 0x200, memRead s.mem 0x1FF, s.pc)) =
      some (0x081000A0, 0, 0x200) := by
  decide

/-! ### Witnesses: for every obligation with a hypothesis, something that meets it, at the ends of each clause's range -/

/-- `RegisterReadsFollowTheView`: the three kinds of index. -/
theorem witness_register_reads :
    (13 : RegIdx).toNat < 14 ∧ readReg 13 (before [(13, 7)] 0x1F []) = 7 ∧
      (14 : RegIdx).toNat = 14 ∧ readReg 14 (before [(13, 7)] 0x1F []) = 0x1F ∧
      (15 : RegIdx).toNat = 15 ∧ readReg 15 (before [(13, 7)] 0x1F []) = 0 := by
  decide

/-- `RegisterWritesFollowTheView`. -/
theorem witness_register_writes :
    (∃ t, t = writeReg 13 (BitVec.ofNat 8 0x1FF) State.reset) ∧ (∃ t, t = writeReg 14 (BitVec.ofNat 8 0x1FF) State.reset) ∧
      ∃ t, t = writeReg 15 (BitVec.ofNat 8 0x1FF) State.reset :=
  ⟨⟨_, rfl⟩, ⟨_, rfl⟩, ⟨_, rfl⟩⟩

/-- `ResetSetsEveryComponentButMemory`, on a halted machine. -/
theorem witness_reset :
    ∃ s t : State, s.run = .halted ∧ (t = hostReset s ∨ t = State.reset) :=
  ⟨haltWith .illegalMode State.reset, _, rfl, .inl rfl⟩

/-- `LoadPlacesTheImageAndResets`: the longest accepted image and the next length, and a length that is no whole number of
words. -/
theorem witness_load :
    (let n := (List.replicate 3584 (0 : Byte)).length; n % 4 = 0 ∧ 0x200 + n ≤ 4096) ∧
      (let n := (List.replicate 3588 (0 : Byte)).length; ¬(n % 4 = 0 ∧ 0x200 + n ≤ 4096)) ∧
      (let n := (List.replicate 6 (0 : Byte)).length; ¬(n % 4 = 0 ∧ 0x200 + n ≤ 4096)) := by
  simp only [List.length_replicate]
  decide

/-- `LoadedProgramDecodesInOrder`, the longest program. -/
theorem witness_loaded_program : (List.replicate 896 Instr.hlt).length ≤ 896 := by rw [List.length_replicate]

/-- The states of V-STR-8 and V-STR-9: with `Rel(2, 4000)` the address is the last byte of memory, and one beyond it. -/
def lastByte : State := before [(1, 1), (2, 95)] 0 []

/-- See `lastByte`. -/
def pastTheEnd : State := before [(1, 1), (2, 96)] 0 []

/-- The clauses on a register-relative operand, of every class B rule and of `PRINT`. -/
theorem witness_relative_address :
    (4000 : Half).toNat + (readReg 2 lastByte).toNat = 4095 ∧
      4095 < (4000 : Half).toNat + (readReg 2 pastTheEnd).toNat := by
  decide

/-- That instruction completes at the last byte, and faults one beyond it. -/
abbrev CompletesAndFaults (rel : RegIdx → Half → Instr) : Prop :=
  look State.run (exec (rel 2 4000) lastByte) = some .running ∧
    look causeAndPc (exec (rel 2 4000) pastTheEnd) = some (.dataOutOfRange, 0x200)

theorem witness_ldr : CompletesAndFaults (.ldrRel 1) := by decide

theorem witness_str :
    CompletesAndFaults (.strRel 1) ∧ look State.run (exec (.strLit 1 4095) lastByte) = some .running ∧
      look causeAndPc (exec (.strLit 1 4096) lastByte) = some (.dataOutOfRange, 0x200) := by
  decide

theorem witness_add : CompletesAndFaults (.addRel 1) := by decide

theorem witness_sub : CompletesAndFaults (.subRel 1) := by decide

theorem witness_mul : CompletesAndFaults (.mulRel 1) := by decide

/-- Both divisor clauses, in the literal form. -/
theorem witness_div :
    CompletesAndFaults (.divRel 1) ∧ (0 : Half).toNat = 0 ∧ look State.flags (exec (.divLit 1 0) lastByte) = some 0x04 ∧
      (1 : Half).toNat ≠ 0 ∧ look State.flags (exec (.divLit 1 1) lastByte) = some 0 := by
  decide

theorem witness_xor : CompletesAndFaults (.xorRel 1) := by decide

theorem witness_and : CompletesAndFaults (.andRel 1) := by decide

theorem witness_or : CompletesAndFaults (.orRel 1) := by decide

theorem witness_not : CompletesAndFaults (.notRel 1) := by decide

/-- The three comparisons of `CmpSetsTheCompareCode`, `r1` being 1. -/
theorem witness_cmp :
    CompletesAndFaults (.cmpRel 1) ∧ (readReg 1 lastByte).toNat = (1 : Half).toNat ∧
      (readReg 1 lastByte).toNat < (2 : Half).toNat ∧ (0 : Half).toNat < (readReg 1 lastByte).toNat := by
  decide

theorem witness_print : CompletesAndFaults .printRel := by decide

/-- The three rows of `CompareOutcomesOfTheDocument` (W1). -/
theorem witness_compare_outcomes :
    (before [(1, 5)] 0 []).regs[1] = 5 ∧ (before [(1, 3)] 0 []).regs[1] = 3 ∧ (before [(1, 9)] 0 []).regs[1] = 9 := by
  decide

/-- The four compare codes, each of which some clause of the jump rules takes and, but for `JMP`, some clause does not. -/
theorem witness_compare_codes :
    [0x1C, 0x1D, 0x1E, 0x1F].map (fun f => (before [] f []).flags.toNat % 4) = [0, 1, 2, 3] := by
  decide

/-- `HltHaltsAndKeepsThePc`: the last word that is `HLT`. -/
theorem witness_hlt_word : (0x07FFFFFF : Word).toNat < 2 ^ 27 := by decide

/-- Reset state with the word `w` at `pc`. -/
def holding (w : Nat) : State := State.reset.withFetchWord 32 w

/-- `StepRunsTheDecodedInstruction`, at the last address that can be fetched from. -/
theorem witness_step_runs :
    let s := (atPc 4092 State.reset).withFetchWord 32 0x081000A0
    s.run = .running ∧ s.pc.toNat = 4092 ∧ FetchedIs s (.ldrLit 1 10) ∧ Instr.WellFormed (.ldrLit 1 10) :=
  ⟨by decide, by decide, show decode _ = _ by decide, by decide⟩

/-- `ChecksComeInTheirOrder`: each of its clauses. -/
theorem witness_checks_in_order :
    (atPc 4093 State.reset).run = .running ∧ 4092 < (atPc 4093 State.reset).pc.toNat ∧
      (holding 0x90000000).pc.toNat ≤ 4092 ∧ fetchedWord (holding 0x90000000) / 2 ^ 27 = 18 ∧
      fetchedWord (holding 0x8B000000) / 2 ^ 27 = 17 ∧ fetchedWord (holding 0x8B000000) / 2 ^ 24 % 8 = 3 ∧
      fetchedWord (holding 0x07FFFFFF) / 2 ^ 27 = 0 ∧
      fetchedWord (holding 0x63000000) / 2 ^ 27 = 12 ∧ fetchedWord (holding 0x63000000) / 2 ^ 24 % 8 = 3 := by
  decide

/-- Which tags of `witness_checks_in_order` are legal. -/
theorem witness_tagLegal : ¬tagLegal 17 3 ∧ tagLegal 12 3 := by
  unfold tagLegal
  decide

/-- `DecodeUndoesEncode`. -/
theorem witness_wellFormed : Instr.WellFormed (.cmpRel 15 15 65535) := by decide

/-- `IgnoredBitsAreNotExamined`: two words that differ in an ignored bit, and the last word of opcode 0. -/
theorem witness_ignored_bits :
    decodeWord 0x081000AF = .ok (.ldrLit 1 10) ∧
      (0x081000A0 : Word) &&& usedBits (.ldrLit 1 10) = 0x081000AF &&& usedBits (.ldrLit 1 10) ∧
      (0x07FFFFFF : Word).toNat / 2 ^ 27 = 0 := by
  decide

/-- Reset state after the one step that empty memory gives, program P6f. -/
def afterEmptyProgram : State := haltWith .haltInstruction State.reset

theorem witness_reset_steps : step State.reset = .next afterEmptyProgram :=
  step_exec (i := .hlt) rfl (by decide)

/-- `StepKeepsTheInvariant`. -/
theorem witness_invariant : ∃ t, State.reset.Inv ∧ step State.reset = .next t :=
  ⟨_, by decide, witness_reset_steps⟩

/-- A run of one step from reset. -/
theorem witness_reaches : Reaches State.reset afterEmptyProgram := .step .refl witness_reset_steps

/-- `EveryLoadedRunMeetsTheInvariant`, both clauses. -/
theorem witness_loaded_run :
    hostLoad [] = some State.reset ∧ Reaches State.reset afterEmptyProgram ∧
      afterEmptyProgram.Inv ∧ Reaches (hostReset afterEmptyProgram) afterEmptyProgram :=
  ⟨by decide, witness_reaches, by decide, witness_reaches⟩

/-- `HaltedMachineWaitsForReset`. -/
theorem witness_halted : afterEmptyProgram.run = .halted ∧ ∃ t, Reaches afterEmptyProgram t := ⟨rfl, _, .refl⟩

/-- `EndedRunEndedInExactlyOneWay`, for a run that `HLT` ends and one that a fault ends. -/
theorem witness_ended :
    (State.reset.Inv ∧ Reaches State.reset afterEmptyProgram ∧ afterEmptyProgram.ended) ∧
      ∃ t, (holding 0xF8000000).Inv ∧ Reaches (holding 0xF8000000) t ∧ t.ended :=
  ⟨⟨by decide, witness_reaches, rfl⟩, haltWith .unknownOpcode (holding 0xF8000000), by decide,
    .step .refl (step_fault rfl (by decide)), rfl⟩

/-- `FaultingStepChangesOnlyStateAndCause` and `FetchFaultsExactlyAbove4092`: a step for each fault. -/
theorem witness_faulting_steps :
    [step (atPc 4093 State.reset), step (holding 0x90000000), step (holding 0x61300000),
        step (holding 0x0A1F1000)].map (look fun t => (t.cause, t.cause.isFault)) =
      [some (.fetchOutOfRange, true), some (.unknownOpcode, true), some (.illegalMode, true), some (.dataOutOfRange, true)] ∧
      (atPc 4093 State.reset).run = .running ∧ (atPc 4093 State.reset).cause = .none ∧
      (holding 0x0A1F1000).run = .running ∧ (holding 0x0A1F1000).cause = .none := by
  decide

/-- `FetchFaultsExactlyAbove4092`: a step on the other side of the limit. -/
theorem witness_fetch_at_the_limit :
    look causeAndPc (step (atPc 4092 State.reset)) = some (.haltInstruction, 4092) := by
  decide

/-- `ChecksComeInTheirOrder`: opcode and tag of undefined words at the ends of the ranges. -/
theorem witness_undefined_words :
    [0x90000000, 0xFFFFFFFF, 0x0B000000, 0x5F000000, 0x8B000000, 0x8F000000, 0x61000000, 0x87000000].map
        (fun w => (fetchedWord (holding w) / 2 ^ 27, fetchedWord (holding w) / 2 ^ 24 % 8)) =
      [(18, 0), (31, 7), (1, 3), (11, 7), (17, 3), (17, 7), (12, 1), (16, 7)] := by
  decide

/-- `DataFaultsExactlyAbove4095`: an address beyond the end, the last address, and no address. -/
theorem witness_data_address :
    dataAddress (.printRel 2 4000) pastTheEnd = some 4096 ∧ dataAddress (.printRel 2 4000) lastByte = some 4095 ∧
      dataAddress (.jmpLit 0xFFFF) lastByte = none := by
  decide

/-- `StepLeavesThePcAsTheTableSays`: a step that halts, one that jumps and one that advances. -/
theorem witness_pc_of_a_step :
    look State.run (step (holding 0)) = some .halted ∧ look causeAndPc (step (holding 0x60FFFF00)) = some (.none, 0xFFFF) ∧
      takenTarget (.jmpLit 0xFFFF) (holding 0x60FFFF00) = some 0xFFFF ∧
      look causeAndPc (step (holding 0x08100010)) = some (.none, 0x204) ∧
      takenTarget (.ldrLit 1 1) (holding 0x08100010) = none := by
  decide

/-- `SequentialAdvanceStaysInReach`, at the last address (V-F-2). -/
theorem witness_sequential_advance :
    let s := (atPc 4092 State.reset).withFetchWord 32 0x08100010
    s.run = .running ∧ FetchedIs s (.ldrLit 1 1) ∧ takenTarget (.ldrLit 1 1) s = none ∧
      look (fun t => (t.run, t.pc)) (step s) = some (.running, 4096) :=
  ⟨by decide, show decode _ = _ by decide, by decide, by decide⟩

/-- The frame statements: an instruction of each kind they speak of, with its next state. -/
theorem witness_frames :
    (∃ t, exec (.addLit 1 255) lastByte = .next t ∧ destination (.addLit 1 255) ≠ some (BitVec.ofNat 4 2) ∧
        destination (.addLit 1 255) ≠ some 14 ∧ isArithmetic (.addLit 1 255) = true ∧
        storesTo (.addLit 1 255) lastByte = none) ∧
      (∃ t, exec (.cmpLit 1 1) lastByte = .next t ∧ destination (.cmpLit 1 1) ≠ some 14 ∧
        isCompare (.cmpLit 1 1) = true) ∧
      (∃ t, exec (.printLit 1) lastByte = .next t ∧ destination (.printLit 1) ≠ some 14 ∧
        isCompare (.printLit 1) = false ∧ isArithmetic (.printLit 1) = false ∧ isPrint (.printLit 1) = true) ∧
      ∃ t, exec (.strRel 1 2 4000) lastByte = .next t ∧ storesTo (.strRel 1 2 4000) lastByte = some 4095 :=
  ⟨⟨_, rfl, by decide⟩, ⟨_, rfl, by decide⟩, ⟨_, rfl, by decide⟩, ⟨_, rfl, by decide⟩⟩

/-- `OutputAndCauseDoNotInfluenceAStep`. -/
theorem witness_noninterference : ∃ t, step (holding 0x88004100) = .next t :=
  ⟨_, step_exec (i := .printLit 65) (by decide) (by decide)⟩

/-- `StoresAreSeenByTheNextFetch`, in both forms, at the last byte. -/
theorem witness_store_then_fetch :
    lastByte.mem.wf = true ∧ storeAddress (.lit 4095) lastByte = some 4095 ∧
      storeAddress (.rel 2 4000) lastByte = some 4095 ∧ look State.run (exec (.strLit 1 4095) lastByte) = some .running ∧
      look State.run (exec (.strRel 1 2 4000) lastByte) = some .running := by
  decide

/-- `LoadReturnsTheLatestStore`: the same address, another address, and the last cell. -/
theorem witness_load_after_store :
    lastByte.mem.wf = true ∧ (4095 : Half).toNat ≤ 4095 ∧ (13 : RegIdx).toNat < 14 ∧ (4095 : Half) ≠ 0 := by
  decide

/-- `PlacedWordRunsNext`, from a running and from a halted state. -/
theorem witness_placed_word :
    State.reset.mem.wf = true ∧ afterEmptyProgram.mem.wf = true ∧
      decodeTableWord 32 0x8AF02000 = some (.printRel 15 512) := by
  decide

end Sys2Proof.Tests
end

section
/-! PROOFS, family 10_state.md: laws. Every instruction is `HLT`, reads a source, stores, or jumps; what each kind does is
said once, together with what the form of the instruction allows it to change. -/

namespace Sys2Proof.Machine

open Sys2Proof.Claims

/-! ### The four kinds of instruction -/

/-- The stored register and the destination of a store: `STR` in its three forms (R121). -/
def storeOf (i : Instr) : Option (RegIdx × Operand) :=
  match i with
  | .strLit rs v => some (rs, .lit v)
  | .strReg rs rt => some (rs, .reg rt)
  | .strRel rs rb off => some (rs, .rel rb off)
  | _ => none

/-- The compare codes on which a jump is taken, and its target; `JMP` is taken on all four (R160 to R166). -/
def jumpOf (i : Instr) : Option (List (BitVec 2) × Target) :=
  match i with
  | .jmpLit v => some ([0, 1, 2, 3], .lit v)
  | .jmpPcr d => some ([0, 1, 2, 3], .pcr d)
  | .jmplLit v => some ([codeLess], .lit v)
  | .jmplPcr d => some ([codeLess], .pcr d)
  | .jmpgLit v => some ([codeGreater], .lit v)
  | .jmpgPcr d => some ([codeGreater], .pcr d)
  | .jmpleLit v => some ([codeLess, codeEqual], .lit v)
  | .jmplePcr d => some ([codeLess, codeEqual], .pcr d)
  | .jmpgeLit v => some ([codeGreater, codeEqual], .lit v)
  | .jmpgePcr d => some ([codeGreater, codeEqual], .pcr d)
  | _ => none

theorem instr_kinds (i : Instr) :
    i = .hlt ∨ (∃ op, sourceOf i = some op) ∨ (∃ rs dest, storeOf i = some (rs, dest)) ∨
      ∃ codes t, jumpOf i = some (codes, t) := by
  cases i <;> simp [sourceOf, storeOf, jumpOf]

theorem exec_of_store {i : Instr} {rs : RegIdx} {dest : Operand} (h : storeOf i = some (rs, dest)) (s : State) :
    exec i s = storeTo dest (readReg rs s) s := by
  cases i <;> cases h <;> rfl

theorem compareCode_mem_all (f : Byte) : compareCode f ∈ ([0, 1, 2, 3] : List (BitVec 2)) := by
  revert f; decide

theorem exec_of_jump {i : Instr} {codes : List (BitVec 2)} {t : Target} (h : jumpOf i = some (codes, t)) (s : State) :
    exec i s = jumpOnCode codes t s := by
  have always (t : Target) : opJmp t s = jumpOnCode [0, 1, 2, 3] t s := by
    rw [jumpOnCode, if_pos (compareCode_mem_all s.flags), opJmp]
  cases i with
  | jmpLit | jmpPcr => cases h; exact always _
  | _ => cases h <;> rfl

theorem compareCode_toNat (f : Byte) : (compareCode f).toNat = f.toNat % 4 := by
  simp [compareCode, BitVec.extractLsb'_toNat]

/-- The code as the claims read it, `FLAGS mod 4`, against a named code. -/
theorem compareCode_eq_iff (f : Byte) (c : BitVec 2) : compareCode f = c ↔ f.toNat % 4 = c.toNat := by
  rw [← BitVec.toNat_inj, compareCode_toNat]

/-- The target the claims speak of is the model's, on the codes of the jump (R160, R161). -/
theorem takenTarget_of_jump {i : Instr} {codes : List (BitVec 2)} {t : Target} (h : jumpOf i = some (codes, t))
    (s : State) :
    takenTarget i s = if compareCode s.flags ∈ codes then some (targetAddress t s).toNat else none := by
  cases i with
  | jmpLit | jmpPcr => cases h; exact (if_pos (compareCode_mem_all s.flags)).symm
  | _ => cases h <;> simp [takenTarget, compareCode_eq_iff, targetAddress]

/-! ### Flag bits that arithmetic raises -/

/-- Bits that arithmetic may set: `DZ`, `OV`, `UF` (R31, R130). -/
abbrev OnlyArithmeticBits (bits : Byte) : Prop := bits &&& 0x1C = bits

theorem raiseOverflow_eq_or (wide : Int) (f : Byte) :
    raiseOverflow wide f = f ||| if wide > 255 then Config.flagOV else 0 := by
  unfold raiseOverflow
  split <;> simp

theorem raiseUnderflow_eq_or (wide : Int) (f : Byte) :
    raiseUnderflow wide f = f ||| if wide < 0 then Config.flagUF else 0 := by
  unfold raiseUnderflow
  split <;> simp

/-! ### What an instruction does before its advance, by its form -/

/-- What an instruction that completes, and is no taken jump, does before its advance; each shape says which forms of
instruction have it. -/
inductive FormEffect (i : Instr) (s : State) : State → Prop where
  /-- A jump that falls through. -/
  | nothing : FormEffect i s s
  /-- The destination register is written and `FLAGS` not touched otherwise. -/
  | write (r : RegIdx) (v : Byte) (hd : destination i = some r) : FormEffect i s (writeReg r v s)
  /-- `ADD`, `SUB`, `MUL`: the destination is written, and then bits are raised (R33). -/
  | writeRaise (r : RegIdx) (v bits : Byte) (hd : destination i = some r) (ha : isArithmetic i = true)
      (hbits : OnlyArithmeticBits bits) :
      FormEffect i s (setFlags ((writeReg r v s).flags ||| bits) (writeReg r v s))
  /-- `DIV` by zero: bits are raised and no register is written (R134). -/
  | raise (bits : Byte) (ha : isArithmetic i = true) (hbits : OnlyArithmeticBits bits) :
      FormEffect i s (setFlags (s.flags ||| bits) s)
  /-- `CMP` (R150). -/
  | compare (d : Int) (hc : isCompare i = true) : FormEffect i s (setFlags (compareFlags d s.flags) s)
  /-- `STR` to memory (R121). -/
  | store (a : Nat) (v : Byte) (hs : storesTo i s = some a) : FormEffect i s (storeByte a v s)
  /-- `PRINT` (R171). -/
  | print (v : Byte) (hp : isPrint i = true) : FormEffect i s (emit v s)

/-- Everything an instruction can answer: a data fault, `HLT`, a taken jump, or an effect of its form and the advance. -/
inductive ExecCase (i : Instr) (s : State) : State → Prop where
  | dataFault (hi : i ≠ .hlt) : ExecCase i s (haltWith .dataOutOfRange s)
  | halt (hi : i = .hlt) : ExecCase i s (haltWith .haltInstruction s)
  | jump (p : Half) (ht : takenTarget i s = some p.toNat) : ExecCase i s (jumpTo p s)
  | complete (u : State) (hi : i ≠ .hlt) (ht : takenTarget i s = none) (hu : FormEffect i s u) :
      ExecCase i s (advance u)

/-- The shared effect of `ADD`, `SUB` and `MUL`, whose `raise` only ever sets bits. -/
theorem formEffect_arithmetic {i : Instr} {rd : RegIdx} (hd : destination i = some rd) (ha : isArithmetic i = true)
    {raise : Byte → Byte} {bits : Byte} (hbits : OnlyArithmeticBits bits) (hr : ∀ f, raise f = f ||| bits) (v : Byte)
    (s : State) : FormEffect i s (setFlags (raise (writeReg rd v s).flags) (writeReg rd v s)) := by
  rw [hr]
  exact .writeRaise rd v bits hd ha hbits

theorem overflowBits (wide : Int) : OnlyArithmeticBits (if wide > 255 then Config.flagOV else 0) := by
  split <;> decide

theorem underflowBits (wide : Int) : OnlyArithmeticBits (if wide < 0 then Config.flagUF else 0) := by
  split <;> decide

theorem formEffect_div {i : Instr} {rd : RegIdx} (hd : destination i = some rd) (ha : isArithmetic i = true) (b : Nat)
    (v : Byte) (s : State) :
    FormEffect i s (if b = 0 then setFlags (raiseDivideByZero s.flags) s else writeReg rd v s) := by
  split
  · exact .raise Config.flagDZ ha (by decide)
  · exact .write rd v hd

theorem sourceEffect_formEffect {i : Instr} {op : Operand} (h : sourceOf i = some op) (b : Nat) (s : State) :
    FormEffect i s (sourceEffect i b s) := by
  cases i with
  | addLit | addReg | addRel | mulLit | mulReg | mulRel =>
    exact formEffect_arithmetic rfl rfl (overflowBits _) (raiseOverflow_eq_or _) _ s
  | subLit | subReg | subRel => exact formEffect_arithmetic rfl rfl (underflowBits _) (raiseUnderflow_eq_or _) _ s
  | divLit | divReg | divRel => exact formEffect_div rfl rfl b _ s
  | cmpLit | cmpReg | cmpRel => exact .compare _ rfl
  | printLit | printReg | printRel => exact .print _ rfl
  | ldrLit | ldrReg | ldrRel | xorLit | xorReg | xorRel | andLit | andReg | andRel | orLit | orReg | orRel | notLit
  | notReg | notRel => exact .write _ _ rfl
  | _ => cases h

theorem source_form {i : Instr} {op : Operand} (h : sourceOf i = some op) (s : State) :
    i ≠ .hlt ∧ takenTarget i s = none := by
  cases i <;> simp [sourceOf, takenTarget] at h ⊢

theorem store_form {i : Instr} {rs : RegIdx} {dest : Operand} (h : storeOf i = some (rs, dest)) (s : State) :
    i ≠ .hlt ∧ takenTarget i s = none ∧ storesTo i s = storeAddress dest s ∧
      ∀ r, dest = .reg r → destination i = some r := by
  cases i <;> cases h <;> simp [takenTarget, storesTo, destination]

theorem execCase_of_source {i : Instr} {op : Operand} (h : sourceOf i = some op) (s : State) :
    ∃ t, exec i s = .next t ∧ ExecCase i s t := by
  obtain ⟨hi, ht⟩ := source_form h s
  rw [exec_of_source h]
  rcases withSource_cases op s fun b => sourceEffect i b s with ⟨b, -, e⟩ | ⟨-, e⟩
  · exact ⟨_, e, .complete _ hi ht (sourceEffect_formEffect h b s)⟩
  · exact ⟨_, e, .dataFault hi⟩

theorem execCase_of_store {i : Instr} {rs : RegIdx} {dest : Operand} (h : storeOf i = some (rs, dest)) (s : State) :
    ∃ t, exec i s = .next t ∧ ExecCase i s t := by
  obtain ⟨hi, ht, hs, hd⟩ := store_form h s
  rw [exec_of_store h]
  rcases storeTo_cases dest (readReg rs s) s with ⟨a, ha, -, e⟩ | ⟨r, hr, e⟩ | ⟨a, -, -, e⟩
  · exact ⟨_, e, .complete _ hi ht (.store a _ (hs.trans ha))⟩
  · exact ⟨_, e, .complete _ hi ht (.write r _ (hd r hr))⟩
  · exact ⟨_, e, .dataFault hi⟩

theorem execCase_of_jump {i : Instr} {codes : List (BitVec 2)} {t : Target} (h : jumpOf i = some (codes, t))
    (s : State) : ∃ t, exec i s = .next t ∧ ExecCase i s t := by
  have hi : i ≠ .hlt := by rintro rfl; cases h
  have ht := takenTarget_of_jump h s
  rw [exec_of_jump h, jumpOnCode]
  split at ht
  · next hc => exact ⟨_, if_pos hc, .jump _ ht⟩
  · next hc => exact ⟨_, if_neg hc, .complete s hi ht .nothing⟩

theorem exec_execCase (i : Instr) (s : State) : ∃ t, exec i s = .next t ∧ ExecCase i s t := by
  rcases instr_kinds i with rfl | ⟨op, h⟩ | ⟨rs, dest, h⟩ | ⟨codes, t, h⟩
  · exact ⟨_, rfl, .halt rfl⟩
  · exact execCase_of_source h s
  · exact execCase_of_store h s
  · exact execCase_of_jump h s

theorem exec_cases {i : Instr} {s t : State} (h : exec i s = .next t) : ExecCase i s t := by
  obtain ⟨t', e, ht⟩ := exec_execCase i s
  cases h.symm.trans e
  exact ht

/-- Before its advance an instruction touches neither `pc` nor `STATE` nor `CAUSE`. -/
theorem FormEffect.control {i : Instr} {s u : State} (h : FormEffect i s u) :
    u.pc = s.pc ∧ u.run = s.run ∧ u.cause = s.cause := by
  cases h <;> exact ⟨rfl, rfl, rfl⟩

/-! ### Steps and fetches -/

theorem decode_eq_ok_iff (b0 b1 b2 b3 : Byte) (i : Instr) :
    decode [b0, b1, b2, b3] = .ok i ↔ decodeWord (wordOfBytes b0 b1 b2 b3) = .ok i := by
  cases h : decodeWord (wordOfBytes b0 b1 b2 b3) <;> simp [decode, h]

theorem fetchedIs_iff (s : State) (i : Instr) : FetchedIs s i ↔ decodeWord (fetchWord s) = .ok i :=
  decode_eq_ok_iff _ _ _ _ i

/-- A step that leaves the machine running fetched an instruction within range and executed it. -/
theorem step_running {s t : State} (h : step s = .next t) (ht : t.run = .running) :
    s.run = .running ∧ s.pc.toNat ≤ 4092 ∧ ∃ i, FetchedIs s i ∧ exec i s = .next t := by
  rcases step_cases s with ⟨hs, e⟩ | ⟨c, -, -, e⟩ | ⟨i, t', hs, hf, e, -, -⟩
  · cases h.symm.trans e
    rw [hs] at ht; cases ht
  · cases h.symm.trans e
    cases ht
  · obtain ⟨hpc, hw⟩ := fetch_ok hf
    exact ⟨hs, hpc, i, (fetchedIs_iff s i).mpr hw, e.symm.trans h⟩

theorem advance_pc_toNat (s : State) : (advance s).pc.toNat = nextPc s :=
  BitVec.toNat_add _ _

/-- What an instruction that leaves a running machine running does to `pc` (R28). -/
theorem exec_running_pc {i : Instr} {s t : State} (h : exec i s = .next t) (ht : t.run = .running) :
    i ≠ .hlt ∧ (∀ p, takenTarget i s = some p → t.pc.toNat = p) ∧
      (takenTarget i s = none → t.pc.toNat = nextPc s) := by
  cases exec_cases h with
  | dataFault | halt => cases ht
  | jump p hp =>
    refine ⟨(by rintro rfl; cases hp), fun q hq => ?_, fun hn => ?_⟩
    · exact Option.some.inj (hp.symm.trans hq)
    · cases hp.symm.trans hn
  | complete u hi hp hu =>
    refine ⟨hi, fun q hq => ?_, fun _ => ?_⟩
    · cases hp.symm.trans hq
    · rw [advance_pc_toNat, nextPc, hu.control.1, nextPc]

/-! ### The invariant -/

/-- An instruction keeps the invariant (R30, R36), whatever its shape. -/
theorem ExecEffect.inv {s t : State} (h : ExecEffect s t) (hs : s.Inv) : t.Inv := by
  obtain ⟨hm, hf, hc⟩ := hs
  cases h with
  | dataFault | halt => exact ⟨hm, hf, haltWith_causeLegal (by decide) s⟩
  | write r v => exact ⟨hm, writeReg_flagsLegal hf, hc⟩
  | writeFlag r v f legal => exact ⟨hm, legal _ (writeReg_flagsLegal hf), hc⟩
  | flag f legal => exact ⟨hm, legal _ hf, hc⟩
  | store a v ha => exact ⟨storeByte_wf hm ha v, hf, hc⟩
  | print | jump | fallThrough => exact ⟨hm, hf, hc⟩

theorem fetch_error_ne_none {s : State} {c : Cause} (h : fetch s = .error c) : c ≠ .none := by
  rcases fetch_error h with rfl | rfl | rfl <;> nofun

/-! ### What was emitted and recorded before -/

/-- `s` with more output before its own and another recorded cause. -/
def withPast (earlier : List Byte) (c : Cause) (s : State) : State := { s with out := earlier ++ s.out, cause := c }

/-- Two answers are next states that differ in the past alone. -/
def SameButPast (earlier : List Byte) (r r' : Result) : Prop :=
  ∃ t c, r = .next t ∧ r' = .next (withPast earlier c t)

@[simp] theorem readReg_withPast (e : List Byte) (c : Cause) (i : RegIdx) (s : State) :
    readReg i (withPast e c s) = readReg i s := rfl

@[simp] theorem sourceValue_withPast (e : List Byte) (c : Cause) (op : Operand) (s : State) :
    sourceValue op (withPast e c s) = sourceValue op s := by
  cases op <;> rfl

theorem emit_withPast (e : List Byte) (c : Cause) (v : Byte) (s : State) :
    emit v (withPast e c s) = withPast e c (emit v s) := by
  simp [emit, withPast]

theorem sourceEffect_withPast (e : List Byte) (c : Cause) (i : Instr) (b : Nat) (s : State) :
    sourceEffect i b (withPast e c s) = withPast e c (sourceEffect i b s) := by
  cases i with
  | divLit | divReg | divRel => 
    simp only [sourceEffect, apply_ite (withPast e c)]
    rfl
  | printLit | printReg | printRel => exact emit_withPast e c _ s
  | _ => rfl

theorem sameButPast_halt (e : List Byte) (c d : Cause) (s : State) :
    SameButPast e (.next (haltWith d s)) (.next (haltWith d (withPast e c s))) :=
  ⟨_, d, rfl, rfl⟩

theorem storeTo_sameButPast (e : List Byte) (c : Cause) (dest : Operand) (v : Byte) (s : State) :
    SameButPast e (storeTo dest v s) (storeTo dest v (withPast e c s)) := by
  have checked (a : Nat) : SameButPast e (storeChecked a v s) (storeChecked a v (withPast e c s)) := by
    unfold storeChecked
    split
    · exact ⟨_, c, rfl, rfl⟩
    · exact sameButPast_halt e c _ s
  cases dest with
  | lit a => exact checked a.toNat
  | reg r => exact ⟨_, c, rfl, rfl⟩
  | rel rb off => exact checked _

theorem jumpOnCode_sameButPast (e : List Byte) (c : Cause) (codes : List (BitVec 2)) (t : Target) (s : State) :
    SameButPast e (jumpOnCode codes t s) (jumpOnCode codes t (withPast e c s)) := by
  by_cases h : compareCode s.flags ∈ codes
  · exact ⟨_, c, if_pos h, by cases t <;> exact if_pos h⟩
  · exact ⟨_, c, if_neg h, if_neg h⟩

theorem exec_sameButPast (e : List Byte) (c : Cause) (i : Instr) (s : State) :
    SameButPast e (exec i s) (exec i (withPast e c s)) := by
  rcases instr_kinds i with rfl | ⟨op, h⟩ | ⟨rs, dest, h⟩ | ⟨codes, t, h⟩
  · exact sameButPast_halt e c _ s
  · rw [exec_of_source h, exec_of_source h]
    cases hb : sourceValue op s with
    | some b =>
      rw [withSource_some hb, withSource_some (s := withPast e c s) (by rw [sourceValue_withPast, hb]),
        sourceEffect_withPast]
      exact ⟨_, c, rfl, rfl⟩
    | none =>
      rw [withSource_none hb, withSource_none (s := withPast e c s) (by rw [sourceValue_withPast, hb])]
      exact sameButPast_halt e c _ s
  · rw [exec_of_store h, exec_of_store h]
    exact storeTo_sameButPast e c dest _ s
  · rw [exec_of_jump h, exec_of_jump h]
    exact jumpOnCode_sameButPast e c codes t s

theorem step_sameButPast (e : List Byte) (c : Cause) (s : State) :
    SameButPast e (step s) (step (withPast e c s)) := by
  rcases step_cases s with ⟨hs, h⟩ | ⟨d, hs, hf, h⟩ | ⟨i, -, hs, hf, h, -⟩
  · exact ⟨s, c, h, step_halted hs⟩
  · rw [h, step_fault (s := withPast e c s) hs hf]
    exact sameButPast_halt e c d s
  · rw [h, step_exec (s := withPast e c s) hs hf]
    exact exec_sameButPast e c i s

/-! ### Frames of the registers, `FLAGS` and `OUT` -/

theorem destination_toNat_ne {i : Instr} {r : RegIdx} {k : Nat} (hd : destination i = some r)
    (hne : destination i ≠ some (BitVec.ofNat 4 k)) : k ≠ r.toNat := by
  rintro rfl
  exact hne (by rw [hd, BitVec.ofNat_toNat, BitVec.setWidth_eq])

theorem FormEffect.cell {i : Instr} {s u : State} (h : FormEffect i s u) (k : Nat) (hk : k < 14)
    (hne : destination i ≠ some (BitVec.ofNat 4 k)) : u.regs[k] = s.regs[k] := by
  cases h with
  | write r v hd => rw [writeReg_cell r v s k hk, if_neg (destination_toNat_ne hd hne)]
  | writeRaise r v bits hd =>
    exact (writeReg_cell r v s k hk).trans (if_neg (destination_toNat_ne hd hne))
  | nothing | raise | compare | store | print => rfl

theorem writeReg_flags_of_ne {i : Instr} {r : RegIdx} (hd : destination i = some r) (hne : destination i ≠ some 14)
    (v : Byte) (s : State) : (writeReg r v s).flags = s.flags := by
  rw [writeReg_flags, if_neg (by rintro rfl; exact hne hd)]

/-- The three things an instruction whose destination is not `cmp` can do to `FLAGS`, and which forms do them (R31). -/
def FlagsFollow (i : Instr) (f g : Byte) : Prop :=
  g = f ∨ (isArithmetic i = true ∧ ∃ bits, OnlyArithmeticBits bits ∧ g = f ||| bits) ∨
    (isCompare i = true ∧ ∃ d, g = compareFlags d f)

theorem FormEffect.flags {i : Instr} {s u : State} (h : FormEffect i s u) (hne : destination i ≠ some 14) :
    FlagsFollow i s.flags u.flags := by
  cases h with
  | write r v hd => exact .inl (writeReg_flags_of_ne hd hne v s)
  | writeRaise r v bits hd ha hbits =>
    exact .inr (.inl ⟨ha, bits, hbits, by rw [setFlags_flags, writeReg_flags_of_ne hd hne]⟩)
  | raise bits ha hbits => exact .inr (.inl ⟨ha, bits, hbits, rfl⟩)
  | compare d hc => exact .inr (.inr ⟨hc, d, rfl⟩)
  | nothing | store | print => exact .inl rfl

theorem exec_flags {i : Instr} {s t : State} (h : exec i s = .next t) (hne : destination i ≠ some 14) :
    FlagsFollow i s.flags t.flags := by
  cases exec_cases h with
  | complete u _ _ hu => exact hu.flags hne
  | dataFault | halt | jump => exact .inl rfl

theorem isCompare_of_isArithmetic {i : Instr} (h : isArithmetic i = true) : isCompare i = false := by
  cases i <;> simp [isArithmetic, isCompare] at h ⊢

theorem exec_out {i : Instr} {s t : State} (h : exec i s = .next t) :
    t.out = s.out ∨ isPrint i = true ∧ ∃ v : Byte, t.out = s.out ++ [v] := by
  cases exec_cases h with
  | complete u _ _ hu =>
    cases hu with
    | print v hp => exact .inr ⟨hp, v, rfl⟩
    | nothing | write | writeRaise | raise | compare | store => exact .inl rfl
  | dataFault | halt | jump => exact .inl rfl

theorem step_out_prefix {s t : State} (h : step s = .next t) : s.out <+: t.out := by
  rcases step_cases s with ⟨-, e⟩ | ⟨c, -, -, e⟩ | ⟨i, t', -, -, e, -, -⟩
  · cases h.symm.trans e
    exact List.prefix_rfl
  · cases h.symm.trans e
    exact List.prefix_rfl
  · rcases exec_out (e.symm.trans h) with e | ⟨-, v, e⟩
    · rw [e]
    · rw [e]; exact List.prefix_append _ _

/-- Steps never leave a halted state (R35). -/
theorem reaches_halted {s t : State} (hs : s.run = .halted) (h : Reaches s t) : t = s := by
  induction h with
  | refl => rfl
  | step _ e ih =>
    subst ih
    cases e.symm.trans (step_halted hs)
    rfl

/-! ### The reset state -/

theorem readReg_reset (i : RegIdx) : readReg i State.reset = 0 := by
  rcases regIdx_cases i with h | rfl | rfl
  · rw [readReg_cell h]
    exact Vector.getElem_replicate h
  · rfl
  · rfl

end Sys2Proof.Machine
end

section
/-! PROOFS, family 10_state.md: the statements. -/

namespace Sys2Proof.Proofs.StateFamily

open Sys2Proof.Machine Sys2Proof.Claims

/-- Settles O34: a step waits, faults with a cause that is not `NONE`, or has one of the effects of `ExecEffect`. -/
theorem stepKeepsTheInvariant : Obligations.StepKeepsTheInvariant := by
  intro s t hs h
  rcases step_cases s with ⟨-, e⟩ | ⟨c, -, hf, e⟩ | ⟨i, u, -, -, e, he, hu⟩
  · cases h.symm.trans e
    exact hs
  · cases h.symm.trans e
    obtain ⟨hmem, hflags, -⟩ := hs
    exact ⟨hmem, hflags, haltWith_causeLegal (fetch_error_ne_none hf) s⟩
  · cases h.symm.trans (e.trans he)
    exact hu.inv hs

/-- Settles O37, from the fixed point that a halted state is. -/
theorem haltedMachineWaitsForReset : Obligations.HaltedMachineWaitsForReset :=
  fun _ _ hs h => ⟨reaches_halted hs h, rfl, rfl⟩

/-- Settles O41: only an instruction that completes or a taken jump moves `pc`, and both leave the machine running. -/
theorem stepLeavesThePcAsTheTableSays : Obligations.StepLeavesThePcAsTheTableSays := by
  intro s t h
  refine ⟨fun ht => ?_, fun ht => ?_⟩
  · rcases step_cases s with ⟨-, e⟩ | ⟨c, -, -, e⟩ | ⟨i, u, hs, -, e, he, -⟩
    · cases h.symm.trans e
      rfl
    · cases h.symm.trans e
      rfl
    · cases h.symm.trans (e.trans he)
      cases exec_cases he with
      | dataFault | halt => rfl
      | jump => cases hs.symm.trans ht
      | complete v _ _ hv => cases hs.symm.trans (hv.control.2.1.symm.trans ht)
  · obtain ⟨-, -, i, hi, he⟩ := step_running h ht
    exact ⟨i, hi, exec_running_pc he ht⟩

/-- Settles O42: what was executed was fetched, so `pc` was at most 4092 (R29). -/
theorem sequentialAdvanceStaysInReach : Obligations.SequentialAdvanceStaysInReach := by
  intro s t i _ hi hn h ht
  obtain ⟨-, hpc, j, hj, he⟩ := step_running h ht
  obtain rfl : j = i := Except.ok.inj (hj.symm.trans hi)
  obtain ⟨-, -, hnext⟩ := exec_running_pc he ht
  have := hnext hn
  unfold nextPc at this
  omega

/-- Settles O43. -/
theorem onlyTheDestinationCellChanges : Obligations.OnlyTheDestinationCellChanges := by
  intro i s t h k hk hne
  cases exec_cases h with
  | complete u _ _ hu => exact hu.cell k hk hne
  | dataFault | halt | jump => rfl

/-- Settles O44, from the three things an instruction can do to `FLAGS`. -/
theorem flagsChangeOnlyAsTheirRuleSays : Obligations.FlagsChangeOnlyAsTheirRuleSays := by
  intro i s t h hne
  rcases exec_flags h hne with e | ⟨ha, bits, hbits, e⟩ | ⟨hc, d, e⟩
  · exact ⟨fun _ _ => e, fun _ => by rw [e], fun _ => ⟨0, rfl, by simp [e]⟩⟩
  · have hc := isCompare_of_isArithmetic ha
    exact ⟨fun _ ha' => (Bool.eq_false_iff.mp ha' ha).elim, fun hc' => (Bool.eq_false_iff.mp hc hc').elim,
      fun _ => ⟨bits, hbits, e⟩⟩
  · refine ⟨fun hc' _ => (Bool.eq_false_iff.mp hc' hc).elim, fun _ => ?_, fun ha => ?_⟩
    · rw [e, compareFlags_high]
    · exact (Bool.eq_false_iff.mp (isCompare_of_isArithmetic ha) hc).elim

/-- Settles O46, by induction over the run for its second part. -/
theorem outputGrowsOnlyByPrint : Obligations.OutputGrowsOnlyByPrint := by
  refine ⟨fun _ _ _ => exec_out, fun s t h => ?_⟩
  induction h with
  | refl => exact List.prefix_rfl
  | step _ e ih => exact ih.trans (step_out_prefix e)

/-- Settles O47: the step of the state with another past answers the same but for that past. -/
theorem outputAndCauseDoNotInfluenceAStep : Obligations.OutputAndCauseDoNotInfluenceAStep := by
  intro s t earlier c h
  obtain ⟨u, c', hu, hp⟩ := step_sameButPast earlier c s
  cases h.symm.trans hu
  exact ⟨c', hp⟩

/-- Settles O1, index by index of the register view (R24). -/
theorem registerReadsFollowTheView : Obligations.RegisterReadsFollowTheView := by
  refine ⟨fun i s => ⟨fun h => readReg_cell h s, fun h => ?_, fun h => ?_⟩, readReg_reset⟩
  · obtain rfl : i = Config.regCmp := BitVec.eq_of_toNat_eq h
    exact readReg_cmp s
  · obtain rfl : i = Config.regZero := BitVec.eq_of_toNat_eq h
    exact readReg_zero s

/-- Settles O2, from what a register write does to a cell and to `FLAGS` (R25). -/
theorem registerWritesFollowTheView : Obligations.RegisterWritesFollowTheView := by
  rintro i n s _ rfl
  have hn : BitVec.ofNat 8 (n % 256) = BitVec.ofNat 8 n := by
    apply BitVec.eq_of_toNat_eq
    simp
  have hcmp : i = Config.regCmp ↔ i.toNat = 14 := BitVec.toNat_inj.symm
  rw [hn]
  refine ⟨fun k hk => writeReg_cell i _ s k hk, ?_, rfl, rfl, rfl, rfl, rfl⟩
  rw [writeReg_flags]
  simp only [hcmp]

/-- Settles O33, by evaluating the reset state. -/
theorem resetMeetsTheInvariant : Obligations.ResetMeetsTheInvariant :=
  ⟨rfl, by decide, iff_of_true rfl rfl⟩

end Sys2Proof.Proofs.StateFamily
end

section
/-! PROOFS, family 20_memory.md: laws. What one store does to the bytes and to the words read afterwards, what any
instruction can do to memory, and a load of one byte through `zero`. -/

namespace Sys2Proof.Machine

open Sys2Proof.Claims

/-! ### Stores -/

/-- A store to memory at an address that exists completes with that byte written (R54, R121). -/
theorem exec_store_ok {i : Instr} {rs : RegIdx} {dest : Operand} {s : State} {a : Nat}
    (hi : storeOf i = some (rs, dest)) (hd : storeAddress dest s = some a) (ha : a < Config.memSize) :
    exec i s = .next (advance (storeByte a (readReg rs s) s)) := by
  rw [exec_of_store hi]
  cases dest with
  | lit | rel => cases hd; exact storeChecked_ok ha _ s
  | reg => cases hd

/-- A four-byte read after a write: the written byte stands wherever the read covers its address (R53, R54, R64). -/
theorem memReadWord_memWrite {m : Memory} (h : m.wf = true) (a p : Nat) (v : Byte) :
    memReadWord (memWrite m a v) p =
      wordOfBytes (if p = a then v else memRead m p) (if p + 1 = a then v else memRead m (p + 1))
        (if p + 2 = a then v else memRead m (p + 2)) (if p + 3 = a then v else memRead m (p + 3)) := by
  simp only [memReadWord, memRead_memWrite h]

/-! ### The frame of memory -/

/-- An instruction leaves memory as it is, or writes one byte at the address it stores to. -/
theorem exec_mem {i : Instr} {s t : State} (h : exec i s = .next t) :
    t.mem = s.mem ∨ ∃ a v, storesTo i s = some a ∧ t.mem = memWrite s.mem a v := by
  cases exec_cases h with
  | complete u _ _ hu =>
    cases hu with
    | store a v hs => exact .inr ⟨a, v, hs, rfl⟩
    | nothing | write | writeRaise | raise | compare | print => exact .inl rfl
  | dataFault | halt | jump => exact .inl rfl

/-! ### Loads -/

theorem lowByte_toNat (v : Byte) : lowByte v.toNat = v := by
  rw [lowByte, BitVec.ofNat_toNat, BitVec.setWidth_eq]

theorem readReg_writeReg_same_cell {i : RegIdx} (h : i.toNat < Config.cellCount) (v : Byte) (s : State) :
    readReg i (writeReg i v s) = v := by
  rw [readReg_cell h, writeReg_cell i v s i.toNat h, if_pos rfl]

/-- Through `zero` an offset is an absolute address (R34). -/
theorem effectiveAddress_zero (off : Half) (s : State) : effectiveAddress Config.regZero off s = off.toNat := by
  rw [effectiveAddress, readReg_zero]
  rfl

/-- `LDR` through `zero` writes the byte at the absolute address into its target (R34, R120). -/
theorem exec_ldrRel_zero {off : Half} {s : State} (h : off.toNat < Config.memSize) (rd : RegIdx) :
    exec (.ldrRel rd Config.regZero off) s = .next (advance (writeReg rd (memRead s.mem off.toNat) s)) := by
  have hb : sourceValue (.rel Config.regZero off) s = some (memRead s.mem off.toNat).toNat := by
    rw [sourceValue_rel (by rwa [effectiveAddress_zero]), effectiveAddress_zero]
  rw [exec_of_source rfl, withSource_some hb, sourceEffect, lowByte_toNat]

end Sys2Proof.Machine
end

section
/-! PROOFS, family 20_memory.md: the statements. -/

namespace Sys2Proof.Proofs.MemoryFamily

open Sys2Proof.Machine Sys2Proof.Claims

/-- Settles O45: memory is unchanged, or written once at the address the instruction stores to. -/
theorem onlyTheStoredByteChanges : Obligations.OnlyTheStoredByteChanges := by
  intro i s t h
  rcases exec_mem h with e | ⟨a, v, hs, e⟩
  · rw [e]
    exact ⟨fun _ _ _ _ => rfl, fun _ _ => rfl⟩
  · rw [e, hs]
    refine ⟨fun a' ha' b hb => ?_, nofun⟩
    cases ha'
    exact memRead_memWrite_of_ne s.mem v hb

/-- Settles O48: both forms are stores, and a fetch reads the memory that was written. -/
theorem storesAreSeenByTheNextFetch : Obligations.StoresAreSeenByTheNextFetch := by
  intro i rs dest s t a hi hm hd ha h p
  have hstore : storeOf i = some (rs, dest) := by
    rcases hi with ⟨v, rfl, rfl⟩ | ⟨rb, off, rfl, rfl⟩ <;> rfl
  cases h.symm.trans (exec_store_ok hstore hd (Nat.lt_succ_of_le ha))
  exact memReadWord_memWrite hm a p _

/-- Settles O49: the load reads the memory the store wrote, and its target is a cell. -/
theorem loadReturnsTheLatestStore : Obligations.LoadReturnsTheLatestStore := by
  intro s rs rd v v' hm hv hv' hrd
  refine ⟨_, _, exec_store_ok (dest := .lit v) rfl rfl (Nat.lt_succ_of_le hv),
    exec_ldrRel_zero (Nat.lt_succ_of_le hv') rd, ?_⟩
  rw [readReg_advance, readReg_writeReg_same_cell hrd, advance_mem, storeByte_mem, memRead_memWrite hm]
  simp only [BitVec.toNat_inj]

/-- Settles O32, from the number four joined bytes make (R51). -/
theorem wordReadsAreBigEndian : Obligations.WordReadsAreBigEndian :=
  fun _ _ => wordOfBytes_toNat _ _ _ _

end Sys2Proof.Proofs.MemoryFamily
end

section
/-! PROOFS, family 30_encoding.md: laws. The bits of a word that its format ignores are the low ones, below some position
(R74 to R80), so a word is examined from that position upward only. What an opcode stands for, in the decoder and in the
encoder, is said once, by `opcode_family`. -/

namespace Sys2Proof

open Sys2Proof.Machine Sys2Proof.Claims

/-! ### The bits from a position upward -/

/-- The mask of the bits `31..k`. -/
def bitsFrom (k : Nat) : Word := BitVec.allOnes 32 <<< k

theorem and_bitsFrom_toNat (w : Word) (k : Nat) : (w &&& bitsFrom k).toNat = w.toNat / 2 ^ k * 2 ^ k := by
  have hle : w.toNat / 2 ^ k * 2 ^ k ≤ w.toNat := Nat.div_mul_le_self _ _
  rw [bitsFrom, ← BitVec.shiftLeft_ushiftRight, BitVec.toNat_shiftLeft, BitVec.toNat_ushiftRight, Nat.shiftLeft_eq,
    Nat.shiftRight_eq_div_pow, Nat.mod_eq_of_lt (hle.trans_lt w.isLt)]

theorem field_and_bitsFrom (w : Word) {k lo : Nat} (h : k ≤ lo) (n : Nat) :
    field (w &&& bitsFrom k) lo n = field w lo n := by
  ext j hj
  simp only [field, bitsFrom, BitVec.getElem_extractLsb', BitVec.getLsbD_and, BitVec.getLsbD_shiftLeft,
    BitVec.getLsbD_allOnes]
  by_cases hlo : lo + j < 32
  · simp [hlo, show ¬lo + j < k by omega, show lo + j - k < 32 by omega]
  · rw [BitVec.getLsbD_of_ge _ _ (by omega), Bool.false_and]

/-- Words that agree from `k` upward have the same fields there. -/
theorem field_eq_of_and_bitsFrom {w w' : Word} {k : Nat} (h : w' &&& bitsFrom k = w &&& bitsFrom k) (lo n : Nat)
    (hk : k ≤ lo) : field w' lo n = field w lo n := by
  rw [← field_and_bitsFrom w' hk, h, field_and_bitsFrom w hk]

theorem opcode_toNat (w : Word) : (field w 27 5).toNat = w.toNat / 2 ^ 27 := by
  rw [field_toNat]
  omega

/-! ### Packing the fields of a word clears its ignored bits -/

theorem packN_fields (w : Word) : packN ⟨field w 27 5, 0⟩ = w &&& bitsFrom 27 := by
  apply BitVec.eq_of_toNat_eq
  rw [packN_toNat, and_bitsFrom_toNat, opcode_toNat]
  simp

theorem packUValue_fields (w : Word) :
    packUValue ⟨field w 27 5, field w 24 3⟩ (field w 8 16) = w &&& bitsFrom 8 := by
  apply BitVec.eq_of_toNat_eq
  simp only [packUValue_toNat, and_bitsFrom_toNat, field_toNat]
  omega

theorem packUReg_fields (w : Word) :
    packUReg ⟨field w 27 5, field w 24 3⟩ (field w 20 4) = w &&& bitsFrom 20 := by
  apply BitVec.eq_of_toNat_eq
  simp only [packUReg_toNat, and_bitsFrom_toNat, field_toNat]
  omega

theorem packURel_fields (w : Word) :
    packURel ⟨field w 27 5, field w 24 3⟩ (field w 20 4) (field w 4 16) = w &&& bitsFrom 4 := by
  apply BitVec.eq_of_toNat_eq
  simp only [packURel_toNat, and_bitsFrom_toNat, field_toNat]
  omega

theorem packBLit_fields (w : Word) :
    packBLit ⟨field w 27 5, field w 24 3⟩ (field w 20 4) (field w 4 16) = w &&& bitsFrom 4 := by
  apply BitVec.eq_of_toNat_eq
  simp only [packBLit_toNat, and_bitsFrom_toNat, field_toNat]
  omega

theorem packBReg_fields (w : Word) :
    packBReg ⟨field w 27 5, field w 24 3⟩ (field w 20 4) (field w 16 4) = w &&& bitsFrom 16 := by
  apply BitVec.eq_of_toNat_eq
  simp only [packBReg_toNat, and_bitsFrom_toNat, field_toNat]
  omega

theorem packBRel_fields (w : Word) :
    packBRel ⟨field w 27 5, field w 24 3⟩ (field w 20 4) (field w 16 4) (field w 0 16) = w &&& bitsFrom 0 := by
  apply BitVec.eq_of_toNat_eq
  simp only [packBRel_toNat, and_bitsFrom_toNat, field_toNat]
  omega

/-! ### The decoders of one class, tag by tag -/

theorem tag_cases (t : BitVec 3) : t = 0 ∨ t = 1 ∨ t = 2 ∨ 2 < t.toNat := by
  revert t; decide

section
variable {w : Word} {lit : RegIdx → Half → Instr} {reg : RegIdx → RegIdx → Instr} {rel : RegIdx → RegIdx → Half → Instr}

theorem decodeClassB_lit (ht : field w 24 3 = 0) :
    decodeClassB w lit reg rel = .ok (lit (field w 20 4) (field w 4 16)) := by
  rw [decodeClassB, ht]; rfl

theorem decodeClassB_reg (ht : field w 24 3 = 1) :
    decodeClassB w lit reg rel = .ok (reg (field w 20 4) (field w 16 4)) := by
  rw [decodeClassB, ht]; rfl

theorem decodeClassB_rel (ht : field w 24 3 = 2) :
    decodeClassB w lit reg rel = .ok (rel (field w 20 4) (field w 16 4) (field w 0 16)) := by
  rw [decodeClassB, ht]; rfl

theorem decodeClassB_illegal (ht : 2 < (field w 24 3).toNat) : decodeClassB w lit reg rel = .error .illegalMode := by
  unfold decodeClassB
  split
  case h_4 => rfl
  all_goals omega

end

section
variable {w : Word} {lit pcr : Half → Instr}

theorem decodeJump_lit (ht : field w 24 3 = 0) : decodeJump w lit pcr = .ok (lit (field w 8 16)) := by
  rw [decodeJump, ht]; rfl

theorem decodeJump_pcr (ht : field w 24 3 = 3) : decodeJump w lit pcr = .ok (pcr (field w 8 16)) := by
  rw [decodeJump, ht]; rfl

theorem decodeJump_illegal (ht : (field w 24 3).toNat ≠ 0) (ht' : (field w 24 3).toNat ≠ 3) :
    decodeJump w lit pcr = .error .illegalMode := by
  unfold decodeJump
  split
  case h_3 => rfl
  all_goals contradiction

end

section
variable {w : Word}

theorem decodePrint_lit (ht : field w 24 3 = 0) : decodePrint w = .ok (.printLit (field w 8 16)) := by
  rw [decodePrint, ht]; rfl

theorem decodePrint_reg (ht : field w 24 3 = 1) : decodePrint w = .ok (.printReg (field w 20 4)) := by
  rw [decodePrint, ht]; rfl

theorem decodePrint_rel (ht : field w 24 3 = 2) : decodePrint w = .ok (.printRel (field w 20 4) (field w 4 16)) := by
  rw [decodePrint, ht]; rfl

theorem decodePrint_illegal (ht : 2 < (field w 24 3).toNat) : decodePrint w = .error .illegalMode := by
  unfold decodePrint
  split
  case h_4 => rfl
  all_goals omega

end

/-! ### The families of opcodes -/

/-- `lit`, `reg`, `rel` are the three forms of the class B instruction with opcode `n`: in the decoder, in the encoder, and
in the bits their formats use (R78 to R81). For given forms every field is checked by evaluation. -/
structure ClassBForms (n : Nat) (lit : RegIdx → Half → Instr) (reg : RegIdx → RegIdx → Instr)
    (rel : RegIdx → RegIdx → Half → Instr) : Prop where
  decodes : ∀ w, (field w 27 5).toNat = n → decodeWord w = decodeClassB w lit reg rel := by
    intro w h
    simp only [decodeWord, h]
  encode_lit : ∀ r v, encode (lit r v) = packBLit ⟨BitVec.ofNat 5 n, 0⟩ r v := by intros; rfl
  encode_reg : ∀ r r1, encode (reg r r1) = packBReg ⟨BitVec.ofNat 5 n, 1⟩ r r1 := by intros; rfl
  encode_rel : ∀ r rb off, encode (rel r rb off) = packBRel ⟨BitVec.ofNat 5 n, 2⟩ r rb off := by intros; rfl
  used_lit : ∀ r v, usedBits (lit r v) = bitsFrom 4 := by intros; rfl
  used_reg : ∀ r r1, usedBits (reg r r1) = bitsFrom 16 := by intros; rfl
  used_rel : ∀ r rb off, usedBits (rel r rb off) = bitsFrom 0 := by intros; rfl

/-- `lit`, `pcr` are the two forms of the jump with opcode `n` (R75, R81). -/
structure JumpForms (n : Nat) (lit pcr : Half → Instr) : Prop where
  decodes : ∀ w, (field w 27 5).toNat = n → decodeWord w = decodeJump w lit pcr := by
    intro w h
    simp only [decodeWord, h]
  encode_lit : ∀ v, encode (lit v) = packUValue ⟨BitVec.ofNat 5 n, 0⟩ v := by intros; rfl
  encode_pcr : ∀ d, encode (pcr d) = packUValue ⟨BitVec.ofNat 5 n, 3⟩ d := by intros; rfl
  used_lit : ∀ v, usedBits (lit v) = bitsFrom 8 := by intros; rfl
  used_pcr : ∀ d, usedBits (pcr d) = bitsFrom 8 := by intros; rfl

/-- What an opcode number stands for (R81). -/
inductive OpcodeFamily : Nat → Prop where
  | hlt : OpcodeFamily 0
  | classB {n : Nat} {lit : RegIdx → Half → Instr} {reg : RegIdx → RegIdx → Instr}
      {rel : RegIdx → RegIdx → Half → Instr} (lo : 1 ≤ n) (hi : n ≤ 11) (forms : ClassBForms n lit reg rel) :
      OpcodeFamily n
  | jump {n : Nat} {lit pcr : Half → Instr} (lo : 12 ≤ n) (hi : n ≤ 16) (forms : JumpForms n lit pcr) : OpcodeFamily n
  | print : OpcodeFamily 17
  | undefined {n : Nat} (lo : 18 ≤ n) : OpcodeFamily n

/-- The table of R81. -/
theorem opcodeFamily : ∀ n, OpcodeFamily n
  | 0 => .hlt
  | 1 => .classB (lit := .ldrLit) (reg := .ldrReg) (rel := .ldrRel) (by decide) (by decide) {}
  | 2 => .classB (lit := .strLit) (reg := .strReg) (rel := .strRel) (by decide) (by decide) {}
  | 3 => .classB (lit := .addLit) (reg := .addReg) (rel := .addRel) (by decide) (by decide) {}
  | 4 => .classB (lit := .subLit) (reg := .subReg) (rel := .subRel) (by decide) (by decide) {}
  | 5 => .classB (lit := .mulLit) (reg := .mulReg) (rel := .mulRel) (by decide) (by decide) {}
  | 6 => .classB (lit := .divLit) (reg := .divReg) (rel := .divRel) (by decide) (by decide) {}
  | 7 => .classB (lit := .xorLit) (reg := .xorReg) (rel := .xorRel) (by decide) (by decide) {}
  | 8 => .classB (lit := .andLit) (reg := .andReg) (rel := .andRel) (by decide) (by decide) {}
  | 9 => .classB (lit := .orLit) (reg := .orReg) (rel := .orRel) (by decide) (by decide) {}
  | 10 => .classB (lit := .notLit) (reg := .notReg) (rel := .notRel) (by decide) (by decide) {}
  | 11 => .classB (lit := .cmpLit) (reg := .cmpReg) (rel := .cmpRel) (by decide) (by decide) {}
  | 12 => .jump (lit := .jmpLit) (pcr := .jmpPcr) (by decide) (by decide) {}
  | 13 => .jump (lit := .jmplLit) (pcr := .jmplPcr) (by decide) (by decide) {}
  | 14 => .jump (lit := .jmpgLit) (pcr := .jmpgPcr) (by decide) (by decide) {}
  | 15 => .jump (lit := .jmpleLit) (pcr := .jmplePcr) (by decide) (by decide) {}
  | 16 => .jump (lit := .jmpgeLit) (pcr := .jmpgePcr) (by decide) (by decide) {}
  | 17 => .print
  | n + 18 => .undefined (Nat.le_add_left 18 n)

theorem decodeWord_hlt {w : Word} (h : (field w 27 5).toNat = 0) : decodeWord w = .ok .hlt := by
  simp only [decodeWord, h]

theorem decodeWord_print {w : Word} (h : (field w 27 5).toNat = 17) : decodeWord w = decodePrint w := by
  simp only [decodeWord, h]

theorem decodeWord_undefined {w : Word} (h : 18 ≤ (field w 27 5).toNat) : decodeWord w = .error .unknownOpcode := by
  unfold decodeWord
  split
  case h_19 => rfl
  all_goals omega

/-! ### A word is examined in its used bits only -/

/-- The rule of R84 for a word that stands for `i`: the encoder writes 0 in the ignored bits, and every word that agrees
outside them decodes to `i`. -/
def StandsForByUsedBits (w : Word) (i : Instr) : Prop :=
  encode i = w &&& usedBits i ∧ ∀ w', w' &&& usedBits i = w &&& usedBits i → decodeWord w' = .ok i

theorem StandsForByUsedBits.decodes {w : Word} {i : Instr} (h : StandsForByUsedBits w i) : decodeWord w = .ok i :=
  h.2 w rfl

/-- It is enough that a word decodes to `i` when it has the fields of `w` from `k` upward. -/
theorem standsForByUsedBits_of_fields {w : Word} {i : Instr} {k : Nat} (hu : usedBits i = bitsFrom k)
    (he : encode i = w &&& bitsFrom k)
    (hd : ∀ w', (∀ lo n, k ≤ lo → field w' lo n = field w lo n) → decodeWord w' = .ok i) : StandsForByUsedBits w i := by
  unfold StandsForByUsedBits
  rw [hu]
  exact ⟨he, fun w' h => hd w' (field_eq_of_and_bitsFrom h)⟩

theorem hlt_standsFor {w : Word} (hn : (field w 27 5).toNat = 0) : StandsForByUsedBits w .hlt := by
  have hopc : field w 27 5 = 0 := BitVec.eq_of_toNat_eq hn
  refine standsForByUsedBits_of_fields (k := 27) rfl ?_ fun w' hf => ?_
  · rw [← packN_fields, hopc]; rfl
  · exact decodeWord_hlt (by rw [hf 27 5 (by decide), hn])

theorem ofNat_opcode {w : Word} {n : Nat} (hn : (field w 27 5).toNat = n) : BitVec.ofNat 5 n = field w 27 5 := by
  rw [← hn, BitVec.ofNat_toNat, BitVec.setWidth_eq]

section
variable {w : Word} {n : Nat} {lit : RegIdx → Half → Instr} {reg : RegIdx → RegIdx → Instr}
  {rel : RegIdx → RegIdx → Half → Instr}

theorem ClassBForms.lit_standsFor (forms : ClassBForms n lit reg rel) (hn : (field w 27 5).toNat = n)
    (ht : field w 24 3 = 0) : StandsForByUsedBits w (lit (field w 20 4) (field w 4 16)) := by
  refine standsForByUsedBits_of_fields (forms.used_lit _ _) ?_ fun w' hf => ?_
  · rw [forms.encode_lit, ← packBLit_fields, ofNat_opcode hn, ht]
  · rw [forms.decodes w' (by rw [hf 27 5 (by decide), hn]), decodeClassB_lit (by rw [hf 24 3 (by decide), ht]),
      hf 20 4 (by decide), hf 4 16 (by decide)]

theorem ClassBForms.reg_standsFor (forms : ClassBForms n lit reg rel) (hn : (field w 27 5).toNat = n)
    (ht : field w 24 3 = 1) : StandsForByUsedBits w (reg (field w 20 4) (field w 16 4)) := by
  refine standsForByUsedBits_of_fields (forms.used_reg _ _) ?_ fun w' hf => ?_
  · rw [forms.encode_reg, ← packBReg_fields, ofNat_opcode hn, ht]
  · rw [forms.decodes w' (by rw [hf 27 5 (by decide), hn]), decodeClassB_reg (by rw [hf 24 3 (by decide), ht]),
      hf 20 4 (by decide), hf 16 4 (by decide)]

theorem ClassBForms.rel_standsFor (forms : ClassBForms n lit reg rel) (hn : (field w 27 5).toNat = n)
    (ht : field w 24 3 = 2) : StandsForByUsedBits w (rel (field w 20 4) (field w 16 4) (field w 0 16)) := by
  refine standsForByUsedBits_of_fields (forms.used_rel _ _ _) ?_ fun w' hf => ?_
  · rw [forms.encode_rel, ← packBRel_fields, ofNat_opcode hn, ht]
  · rw [forms.decodes w' (by rw [hf 27 5 (by decide), hn]), decodeClassB_rel (by rw [hf 24 3 (by decide), ht]),
      hf 20 4 (by decide), hf 16 4 (by decide), hf 0 16 (by decide)]

end

section
variable {w : Word} {n : Nat} {lit pcr : Half → Instr}

theorem JumpForms.lit_standsFor (forms : JumpForms n lit pcr) (hn : (field w 27 5).toNat = n) (ht : field w 24 3 = 0) :
    StandsForByUsedBits w (lit (field w 8 16)) := by
  refine standsForByUsedBits_of_fields (forms.used_lit _) ?_ fun w' hf => ?_
  · rw [forms.encode_lit, ← packUValue_fields, ofNat_opcode hn, ht]
  · rw [forms.decodes w' (by rw [hf 27 5 (by decide), hn]), decodeJump_lit (by rw [hf 24 3 (by decide), ht]),
      hf 8 16 (by decide)]

theorem JumpForms.pcr_standsFor (forms : JumpForms n lit pcr) (hn : (field w 27 5).toNat = n) (ht : field w 24 3 = 3) :
    StandsForByUsedBits w (pcr (field w 8 16)) := by
  refine standsForByUsedBits_of_fields (forms.used_pcr _) ?_ fun w' hf => ?_
  · rw [forms.encode_pcr, ← packUValue_fields, ofNat_opcode hn, ht]
  · rw [forms.decodes w' (by rw [hf 27 5 (by decide), hn]), decodeJump_pcr (by rw [hf 24 3 (by decide), ht]),
      hf 8 16 (by decide)]

end

section
variable {w : Word} (hn : (field w 27 5).toNat = 17)
include hn

theorem printLit_standsFor (ht : field w 24 3 = 0) : StandsForByUsedBits w (.printLit (field w 8 16)) := by
  refine standsForByUsedBits_of_fields (k := 8) rfl ?_ fun w' hf => ?_
  · rw [← packUValue_fields, ← ofNat_opcode hn, ht]; rfl
  · rw [decodeWord_print (by rw [hf 27 5 (by decide), hn]), decodePrint_lit (by rw [hf 24 3 (by decide), ht]),
      hf 8 16 (by decide)]

theorem printReg_standsFor (ht : field w 24 3 = 1) : StandsForByUsedBits w (.printReg (field w 20 4)) := by
  refine standsForByUsedBits_of_fields (k := 20) rfl ?_ fun w' hf => ?_
  · rw [← packUReg_fields, ← ofNat_opcode hn, ht]; rfl
  · rw [decodeWord_print (by rw [hf 27 5 (by decide), hn]), decodePrint_reg (by rw [hf 24 3 (by decide), ht]),
      hf 20 4 (by decide)]

theorem printRel_standsFor (ht : field w 24 3 = 2) :
    StandsForByUsedBits w (.printRel (field w 20 4) (field w 4 16)) := by
  refine standsForByUsedBits_of_fields (k := 4) rfl ?_ fun w' hf => ?_
  · rw [← packURel_fields, ← ofNat_opcode hn, ht]; rfl
  · rw [decodeWord_print (by rw [hf 27 5 (by decide), hn]), decodePrint_rel (by rw [hf 24 3 (by decide), ht]),
      hf 20 4 (by decide), hf 4 16 (by decide)]

end

/-! ### The class of a word -/

/-- The three classes of R85 by opcode and tag, and what a word of each class is. -/
inductive WordClass (w : Word) (opc tag : Nat) : Prop where
  | legal (h : opc = 0 ∨ opc ≤ 17 ∧ tagLegal opc tag) (i : Instr) (hi : StandsForByUsedBits w i)
  | unknownOpcode (h : 18 ≤ opc) (hd : decodeWord w = .error .unknownOpcode)
  | illegalMode (h : 1 ≤ opc ∧ opc ≤ 17 ∧ ¬tagLegal opc tag) (hd : decodeWord w = .error .illegalMode)

theorem tagLegal_classB {n : Nat} (lo : 1 ≤ n) (hi : n ≤ 11) (t : Nat) : tagLegal n t ↔ t ≤ 2 := by
  unfold tagLegal
  omega

theorem tagLegal_jump {n : Nat} (lo : 12 ≤ n) (hi : n ≤ 16) (t : Nat) : tagLegal n t ↔ t = 0 ∨ t = 3 := by
  unfold tagLegal
  omega

theorem tagLegal_print (t : Nat) : tagLegal 17 t ↔ t ≤ 2 := by
  unfold tagLegal
  omega

theorem wordClass_classB {w : Word} {n : Nat} {lit : RegIdx → Half → Instr} {reg : RegIdx → RegIdx → Instr}
    {rel : RegIdx → RegIdx → Half → Instr} (hn : (field w 27 5).toNat = n) (lo : 1 ≤ n) (hi : n ≤ 11)
    (forms : ClassBForms n lit reg rel) : WordClass w n (field w 24 3).toNat := by
  have legal {t : Nat} (h : t ≤ 2) : n = 0 ∨ n ≤ 17 ∧ tagLegal n t :=
    .inr ⟨hi.trans (by decide), (tagLegal_classB lo hi t).mpr h⟩
  rcases tag_cases (field w 24 3) with ht | ht | ht | ht
  · exact .legal (legal (by rw [ht]; decide)) _ (forms.lit_standsFor hn ht)
  · exact .legal (legal (by rw [ht]; decide)) _ (forms.reg_standsFor hn ht)
  · exact .legal (legal (by rw [ht]; decide)) _ (forms.rel_standsFor hn ht)
  · exact .illegalMode ⟨lo, hi.trans (by decide), (tagLegal_classB lo hi _).not.mpr (Nat.not_le.mpr ht)⟩
      ((forms.decodes w hn).trans (decodeClassB_illegal ht))

theorem wordClass_jump {w : Word} {n : Nat} {lit pcr : Half → Instr} (hn : (field w 27 5).toNat = n) (lo : 12 ≤ n)
    (hi : n ≤ 16) (forms : JumpForms n lit pcr) : WordClass w n (field w 24 3).toNat := by
  have htag := tagLegal_jump lo hi (field w 24 3).toNat
  have hle : n ≤ 17 := hi.trans (by decide)
  by_cases h0 : (field w 24 3).toNat = 0
  · exact .legal (.inr ⟨hle, htag.mpr (.inl h0)⟩) _ (forms.lit_standsFor hn (BitVec.eq_of_toNat_eq h0))
  · by_cases h3 : (field w 24 3).toNat = 3
    · exact .legal (.inr ⟨hle, htag.mpr (.inr h3)⟩) _ (forms.pcr_standsFor hn (BitVec.eq_of_toNat_eq h3))
    · exact .illegalMode ⟨by omega, hle, htag.not.mpr (not_or.mpr ⟨h0, h3⟩)⟩
        ((forms.decodes w hn).trans (decodeJump_illegal h0 h3))

theorem wordClass_print {w : Word} (hn : (field w 27 5).toNat = 17) : WordClass w 17 (field w 24 3).toNat := by
  have legal {t : Nat} (h : t ≤ 2) : 17 = 0 ∨ 17 ≤ 17 ∧ tagLegal 17 t := .inr ⟨Nat.le_refl 17, (tagLegal_print t).mpr h⟩
  rcases tag_cases (field w 24 3) with ht | ht | ht | ht
  · exact .legal (legal (by rw [ht]; decide)) _ (printLit_standsFor hn ht)
  · exact .legal (legal (by rw [ht]; decide)) _ (printReg_standsFor hn ht)
  · exact .legal (legal (by rw [ht]; decide)) _ (printRel_standsFor hn ht)
  · exact .illegalMode ⟨by decide, Nat.le_refl 17, (tagLegal_print _).not.mpr (Nat.not_le.mpr ht)⟩
      ((decodeWord_print hn).trans (decodePrint_illegal ht))

theorem wordClass (w : Word) : WordClass w (w.toNat / 2 ^ 27) (w.toNat / 2 ^ 24 % 8) := by
  rw [← opcode_toNat, show w.toNat / 2 ^ 24 % 8 = (field w 24 3).toNat from (field_toNat w 24 3).symm]
  have family := opcodeFamily (field w 27 5).toNat
  generalize hn : (field w 27 5).toNat = n at family ⊢
  cases family with
  | hlt => exact .legal (.inl rfl) _ (hlt_standsFor hn)
  | classB lo hi forms => exact wordClass_classB hn lo hi forms
  | jump lo hi forms => exact wordClass_jump hn lo hi forms
  | print => exact wordClass_print hn
  | undefined lo => exact .unknownOpcode lo (decodeWord_undefined (hn ▸ lo))

theorem standsForByUsedBits_of_decodes {w : Word} {i : Instr} (h : decodeWord w = .ok i) : StandsForByUsedBits w i := by
  cases wordClass w with
  | legal _ j hj =>
    cases h.symm.trans hj.decodes
    exact hj
  | unknownOpcode _ hd | illegalMode _ hd => cases h.symm.trans hd

/-! ### The round trip -/

theorem decodeWord_encode (i : Instr) : decodeWord (encode i) = .ok i := by
  cases i with
  | hlt => rfl
  | ldrLit r v | strLit r v | addLit r v | subLit r v | mulLit r v | divLit r v | xorLit r v | andLit r v | orLit r v
  | notLit r v | cmpLit r v =>
    rw [decodeWord, encode, packBLit_opc]
    exact decodeClassB_packBLit _ r v _ _ _
  | ldrReg r r1 | strReg r r1 | addReg r r1 | subReg r r1 | mulReg r r1 | divReg r r1 | xorReg r r1 | andReg r r1
  | orReg r r1 | notReg r r1 | cmpReg r r1 =>
    rw [decodeWord, encode, packBReg_opc]
    exact decodeClassB_packBReg _ r r1 _ _ _
  | ldrRel r rb off | strRel r rb off | addRel r rb off | subRel r rb off | mulRel r rb off | divRel r rb off
  | xorRel r rb off | andRel r rb off | orRel r rb off | notRel r rb off | cmpRel r rb off =>
    rw [decodeWord, encode, packBRel_opc]
    exact decodeClassB_packBRel _ r rb off _ _ _
  | jmpLit v | jmplLit v | jmpgLit v | jmpleLit v | jmpgeLit v =>
    rw [decodeWord, encode, packUValue_opc]
    exact decodeJump_packUValue_lit _ v _ _
  | jmpPcr d | jmplPcr d | jmpgPcr d | jmplePcr d | jmpgePcr d =>
    rw [decodeWord, encode, packUValue_opc]
    exact decodeJump_packUValue_pcr _ d _ _
  | printLit v =>
    rw [decodeWord, encode, packUValue_opc]
    exact decodePrint_packUValue _ v
  | printReg rs =>
    rw [decodeWord, encode, packUReg_opc]
    exact decodePrint_packUReg _ rs
  | printRel rb off =>
    rw [decodeWord, encode, packURel_opc]
    exact decodePrint_packURel _ rb off

/-! ### A loaded program -/

@[simp] theorem encodeBytes_length (i : Instr) : (encodeBytes i).length = 4 := rfl

theorem encodeProgram_length (program : List Instr) : (program.flatMap encodeBytes).length = 4 * program.length := by
  induction program with
  | nil => rfl
  | cons i rest ih =>
    rw [List.flatMap_cons, List.length_append, ih, encodeBytes_length, List.length_cons]
    omega

end Sys2Proof

namespace Sys2Proof.Machine

theorem memWriteAll_append (m : Memory) (a : Nat) (xs ys : List Byte) :
    memWriteAll m a (xs ++ ys) = memWriteAll (memWriteAll m a xs) (a + xs.length) ys := by
  induction xs generalizing m a with
  | nil => rfl
  | cons v xs ih =>
    rw [List.cons_append, memWriteAll, memWriteAll, ih, List.length_cons, Nat.add_assoc, Nat.add_comm 1]

/-- A word whose bytes were stored at an address is read back from it (R51, R53). -/
theorem memReadWord_bytesOfWord {m : Memory} (h : m.wf = true) {a : Nat} (ha : a + 4 ≤ Config.memSize) (w : Word) :
    memReadWord (memWriteAll m a (bytesOfWord w)) a = w := by
  have byte {k : Nat} (hk : k < 4) := memRead_memWriteAll_inside h (bytes := bytesOfWord w) ha hk
  rw [memReadWord, byte (k := 1) (by decide), byte (k := 2) (by decide), byte (k := 3) (by decide)]
  exact (congrArg (wordOfBytes · _ _ _) (byte (k := 0) (by decide))).trans (wordOfBytes_bytesOfWord w)

/-- Reads of four bytes do not see what is stored outside them. -/
theorem memReadWord_memWriteAll_outside (m : Memory) {a b : Nat} {bytes : List Byte} (hb : b + 4 ≤ a) :
    memReadWord (memWriteAll m a bytes) b = memReadWord m b := by
  have byte {k : Nat} (hk : k < 4) : memRead (memWriteAll m a bytes) (b + k) = memRead m (b + k) :=
    memRead_memWriteAll_outside m (.inl (by omega))
  rw [memReadWord, byte (k := 1) (by decide), byte (k := 2) (by decide), byte (k := 3) (by decide)]
  exact congrArg (wordOfBytes · _ _ _) (byte (k := 0) (by decide))

/-- The words of a program stored from `a` on stand in order, four bytes apart (R95). -/
theorem memReadWord_program {m : Memory} (h : m.wf = true) {a : Nat} {program : List Instr}
    (ha : a + 4 * program.length ≤ Config.memSize) {k : Nat} (hk : k < program.length) :
    memReadWord (memWriteAll m a (program.flatMap encodeBytes)) (a + 4 * k) = encode program[k] := by
  induction program generalizing m a k with
  | nil => exact absurd hk (Nat.not_lt_zero k)
  | cons i rest ih =>
    rw [List.length_cons] at ha hk
    rw [List.flatMap_cons, memWriteAll_append, encodeBytes_length]
    cases k with
    | zero =>
      exact (memReadWord_memWriteAll_outside _ (Nat.le_refl _)).trans (memReadWord_bytesOfWord h (by omega) (encode i))
    | succ k =>
      rw [show a + 4 * (k + 1) = a + 4 + 4 * k by omega]
      exact ih (memWriteAll_wf h (by rw [encodeBytes_length]; omega)) (by omega) (by omega)

/-- What the load of an accepted image gives (R211). -/
theorem hostLoad_accepted {image : List Byte} (hlen : image.length % 4 = 0) (hfit : 0x200 + image.length ≤ 4096) :
    hostLoad image = some { State.reset with mem := memWriteAll [] 0x200 image } := by
  rw [hostLoad, if_pos (by simp [imageAccepted, hlen, hfit])]
  rfl

end Sys2Proof.Machine
end

section
/-! PROOFS, family 30_encoding.md: the statements. -/

namespace Sys2Proof.Proofs.EncodingFamily

open Sys2Proof.Machine Sys2Proof.Claims

/-- Settles O6, by induction on the program for what memory holds, and the round trip. -/
theorem loadedProgramDecodesInOrder : Obligations.LoadedProgramDecodesInOrder := by
  intro program hlen
  have hbytes := encodeProgram_length program
  refine ⟨_, hostLoad_accepted (by omega) (by omega), fun k hk => ?_⟩
  refine (decode_eq_ok_iff _ _ _ _ _).mpr ?_
  have hword := memReadWord_program (m := []) rfl (a := 0x200) (show 0x200 + 4 * program.length ≤ 4096 by omega) hk
  exact (congrArg decodeWord hword).trans (decodeWord_encode _)

/-- Settles O29: the bytes join to the word they were cut from, and that word decodes. -/
theorem decodeUndoesEncode : Obligations.DecodeUndoesEncode := by
  intro i _
  rw [encodeBytes, decode_bytesOfWord, decodeWord_encode]

/-- Settles O28, class by class; the three conditions exclude each other. -/
theorem everyWordHasOneClass : Obligations.EveryWordHasOneClass := by
  intro w
  cases wordClass w with
  | legal h i hi =>
    rw [hi.decodes]
    refine ⟨iff_of_true ⟨i, rfl⟩ h, iff_of_false nofun fun hu => ?_, iff_of_false nofun fun ⟨hpos, _, hm⟩ => ?_⟩
    · rcases h with h | ⟨h, -⟩ <;> omega
    · exact hm (h.resolve_left (Nat.ne_of_gt hpos)).2
  | unknownOpcode h hd =>
    rw [hd]
    exact ⟨iff_of_false nofun (by omega), iff_of_true rfl h, iff_of_false nofun (by omega)⟩
  | illegalMode h hd =>
    rw [hd]
    obtain ⟨hpos, hle, hm⟩ := h
    exact ⟨iff_of_false nofun fun hl => hm (hl.resolve_left (Nat.ne_of_gt hpos)).2, iff_of_false nofun (by omega),
      iff_of_true rfl ⟨hpos, hle, hm⟩⟩

/-- Settles O30: a legal word stands for its instruction by its used bits, and opcode 0 uses no more than the opcode. -/
theorem ignoredBitsAreNotExamined : Obligations.IgnoredBitsAreNotExamined :=
  ⟨fun _ _ => standsForByUsedBits_of_decodes, fun w h => decodeWord_hlt ((opcode_toNat w).trans h)⟩

/-- Settles O31, by evaluating the decoder on the eleven words. -/
theorem exampleWordsDecode : Obligations.ExampleWordsDecode := by
  unfold Obligations.ExampleWordsDecode
  decide

end Sys2Proof.Proofs.EncodingFamily
end

section
/-! PROOFS, family 40_step_and_operands.md: laws. A fetch whose word decodes succeeds, a step and a run always answer a
state, and a placed word is the word that is fetched. -/

namespace Sys2Proof.Machine

/-! ### Running what was fetched -/

theorem fetch_of_decodeWord {s : State} {i : Instr} (hpc : s.pc.toNat ≤ 4092)
    (h : decodeWord (fetchWord s) = .ok i) : fetch s = .ok i := by
  rw [fetch_in_range hpc, h]

/-! ### Steps and runs answer a state -/

theorem step_total (s : State) : ∃ t, step s = .next t := by
  rcases step_cases s with ⟨-, e⟩ | ⟨c, -, -, e⟩ | ⟨i, t, -, -, e, he, -⟩
  · exact ⟨s, e⟩
  · exact ⟨haltWith c s, e⟩
  · exact ⟨t, e.trans he⟩

theorem run_succ {s t : State} (h : step s = .next t) (n : Nat) : core.run (n + 1) s = core.run n t := by
  simp only [Host.Core.run, show core.step s = .next t from h]

theorem run_total (n : Nat) (s : State) : ∃ t, core.run n s = .next t := by
  induction n generalizing s with
  | zero => exact ⟨s, rfl⟩
  | succ n ih =>
    obtain ⟨t, h⟩ := step_total s
    rw [run_succ h]
    exact ih t

/-- An outcome that is a state is no other state (R101). -/
theorem existsUnique_next {σ φ ρ : Type} {r : Host.Outcome σ φ ρ} (h : ∃ t, r = .next t) : ∃! t, r = .next t := by
  obtain ⟨t, rfl⟩ := h
  exact ⟨t, rfl, fun _ e => (Host.Outcome.next.inj e).symm⟩

/-! ### A placed word -/

theorem decodeWord_of_decodeTableWord {nbits w : Nat} {i : Instr} (h : decodeTableWord nbits w = some i) :
    decodeWord (tableWord nbits w) = .ok i := by
  rw [decodeTableWord, decode_bytesOfWord] at h
  cases hd : decodeWord (tableWord nbits w) with
  | ok j => rw [hd] at h; cases h; rfl
  | error b => rw [hd] at h; cases h

/-- A state made ready to fetch would fetch, and its memory is the one it had (log entry 5). -/
theorem readyToFetch_fetches (s : State) :
    (readyToFetch s).run = .running ∧ (readyToFetch s).pc.toNat ≤ 4092 ∧ (readyToFetch s).mem = s.mem := by
  unfold readyToFetch
  split
  · next h =>
    obtain ⟨hrun, hpc⟩ := h
    exact ⟨hrun, (fetchInRange_iff s).mp hpc, rfl⟩
  · exact ⟨rfl, show (BitVec.ofNat 16 Config.loadBase).toNat ≤ 4092 by decide, rfl⟩

/-- The word fetched after placing one is the placed one (R51, R53). -/
theorem fetchWord_withFetchWord {s : State} (h : s.mem.wf = true) (nbits w : Nat) :
    fetchWord (s.withFetchWord nbits w) = tableWord nbits w := by
  obtain ⟨-, hpc, hmem⟩ := readyToFetch_fetches s
  exact memReadWord_bytesOfWord (by rwa [hmem]) (Nat.add_le_add_right hpc 4) (tableWord nbits w)

end Sys2Proof.Machine
end

section
/-! PROOFS, family 40_step_and_operands.md: the statements. -/

namespace Sys2Proof.Proofs.StepFamily

open Sys2Proof.Machine Sys2Proof.Claims

/-- Settles O36, by induction on the number of steps for the run. -/
theorem everyStateHasExactlyOneNextState : Obligations.EveryStateHasExactlyOneNextState :=
  ⟨fun s => existsUnique_next (step_total s), fun n s => existsUnique_next (run_total n s)⟩

/-- Settles O51: the prepared state runs within range, and the word it fetches is the placed one. -/
theorem placedWordRunsNext : Obligations.PlacedWordRunsNext := by
  intro s w i hm hd
  obtain ⟨hrun, hpc, -⟩ := readyToFetch_fetches s
  have hword : decodeWord (fetchWord (s.withFetchWord 32 w)) = .ok i := by
    rw [fetchWord_withFetchWord hm]
    exact decodeWord_of_decodeTableWord hd
  exact step_exec hrun (fetch_of_decodeWord hpc hword)

/-- Settles O26: the bytes at `pc` are the word a fetch decodes. -/
theorem stepRunsTheDecodedInstruction : Obligations.StepRunsTheDecodedInstruction :=
  fun s i hrun hpc hi _ => step_exec hrun (fetch_of_decodeWord hpc ((fetchedIs_iff s i).mp hi))

end Sys2Proof.Proofs.StepFamily
end

section
/-! PROOFS, family 41_load_store.md: laws. The words of a class B instruction as numbers, the rule of a class B instruction
that reads its operand, and what a register write and a store leave as the claims say it. -/

namespace Sys2Proof

open Sys2Proof.Machine Sys2Proof.Claims

/-! ### Class B words and rules -/

section
variable {n : Nat} {lit : RegIdx → Half → Instr} {reg : RegIdx → RegIdx → Instr} {rel : RegIdx → RegIdx → Half → Instr}

/-- The fields of the formats at their places (R78 to R80). -/
theorem ClassBForms.words (forms : ClassBForms n lit reg rel) (hn : n < 2 ^ 5) : ClassBWords n lit reg rel := by
  have hopc : (BitVec.ofNat 5 n).toNat = n := Nat.mod_eq_of_lt hn
  refine ⟨fun r0 v => ?_, fun r0 r1 => ?_, fun r0 rb off => ?_⟩
  · rw [forms.encode_lit, packBLit_toNat, hopc]; rfl
  · rw [forms.encode_reg, packBReg_toNat, hopc]; rfl
  · rw [forms.encode_rel, packBRel_toNat, hopc]; rfl

/-- An instruction whose three forms are `withSource` on one effect obeys the rule for whatever that effect and the advance
amount to (R106, R107). -/
theorem ClassBForms.rule (forms : ClassBForms n lit reg rel) (hn : n < 2 ^ 5) (run : State → RegIdx → Nat → State)
    (exec_lit : ∀ s r0 v, exec (lit r0 v) s = withSource (.lit v) s (run s r0))
    (exec_reg : ∀ s r0 r1, exec (reg r0 r1) s = withSource (.reg r1) s (run s r0))
    (exec_rel : ∀ s r0 rb off, exec (rel r0 rb off) s = withSource (.rel rb off) s (run s r0))
    {effect : State → RegIdx → Nat → State → Prop} (heffect : ∀ s r0 b, effect s r0 b (advance (run s r0 b))) :
    ClassBRule n lit reg rel effect := by
  refine ⟨forms.words hn, fun s r0 => ⟨fun v => ?_, fun r1 => ?_, fun rb off => ⟨fun h => ?_, fun h => ?_⟩⟩⟩
  · exact ⟨_, (exec_lit s r0 v).trans (withSource_some (sourceValue_lit v s) _), heffect s r0 _⟩
  · exact ⟨_, (exec_reg s r0 r1).trans (withSource_some (sourceValue_reg r1 s) _), heffect s r0 _⟩
  · exact ⟨_, (exec_rel s r0 rb off).trans (withSource_some (sourceValue_rel (Nat.lt_succ_of_le h)) _), heffect s r0 _⟩
  · exact (exec_rel s r0 rb off).trans (withSource_none (sourceValue_rel_none h) _)

end

end Sys2Proof

namespace Sys2Proof.Machine

open Sys2Proof.Claims

/-! ### A register write -/

/-- The low byte of an operand value is its remainder modulo 256 (R7, R107). -/
theorem byteOf_natCast (b : Nat) : byteOf b = lowByte b := by
  apply BitVec.eq_of_toNat_eq
  simp only [byteOf, lowByte, BitVec.toNat_ofNat]
  omega

/-- A write of a byte and the advance, with no flag raised (R25, R28). -/
theorem wroteRegister_writeReg (rd : RegIdx) (v : Int) (s : State) :
    WroteRegister s rd v 0 (advance (writeReg rd (byteOf v) s)) := by
  have hcmp : rd = Config.regCmp ↔ rd.toNat = 14 := BitVec.toNat_inj.symm
  refine ⟨fun k hk => writeReg_cell rd _ s k hk, ?_, advance_pc_toNat _, rfl, rfl, rfl, rfl⟩
  rw [advance_flags, writeReg_flags]
  simp only [hcmp]
  exact BitVec.or_zero.symm

/-! ### A store -/

/-- A store of a byte and the advance (R28, R54). -/
theorem storedByte_storeByte (a : Nat) (v : Byte) (s : State) : StoredByte s a v (advance (storeByte a v s)) :=
  ⟨fun hm => memRead_memWrite_same hm a v, fun _ hb => memRead_memWrite_of_ne s.mem v hb, rfl, rfl, advance_pc_toNat _,
    rfl, rfl, rfl⟩

theorem exec_store_fault {i : Instr} {rs : RegIdx} {dest : Operand} {s : State} {a : Nat}
    (hi : storeOf i = some (rs, dest)) (hd : storeAddress dest s = some a) (ha : Config.memSize ≤ a) :
    exec i s = .next (haltWith .dataOutOfRange s) := by
  rw [exec_of_store hi]
  cases dest with
  | lit | rel => cases hd; exact storeChecked_fault ha _ s
  | reg => cases hd

/-- A store with a memory destination completes exactly when its address is at most 4095 (R121, R187). -/
theorem exec_store_memory {i : Instr} {rs : RegIdx} {dest : Operand} {s : State} {a : Nat}
    (hi : storeOf i = some (rs, dest)) (hd : storeAddress dest s = some a) :
    (a ≤ 4095 → ∃ t, exec i s = .next t ∧ StoredByte s a (readReg rs s) t) ∧
      (4095 < a → exec i s = .next (faulted .dataOutOfRange s)) :=
  ⟨fun ha => ⟨_, exec_store_ok hi hd (Nat.lt_succ_of_le ha), storedByte_storeByte a _ s⟩,
    fun ha => exec_store_fault hi hd ha⟩

end Sys2Proof.Machine
end

section
/-! PROOFS, family 41_load_store.md: the statements. -/

namespace Sys2Proof.Proofs.LoadStoreFamily

open Sys2Proof.Machine Sys2Proof.Claims

/-- Settles O7: every form writes the low byte of the operand value to its target. -/
theorem ldrLoadsTheLowByteOfItsOperand : Obligations.LdrLoadsTheLowByteOfItsOperand := by
  refine ClassBForms.rule {} (by decide) (fun s rd b => writeReg rd (lowByte b) s) (fun _ _ _ => rfl) (fun _ _ _ => rfl)
    (fun _ _ _ _ => rfl) fun s rd b => ?_
  rw [← byteOf_natCast]
  exact wroteRegister_writeReg rd b s

/-- Settles O8: two forms store at the address their destination names, and the third writes a register. -/
theorem strStoresTheRegisterByte : Obligations.StrStoresTheRegisterByte := by
  refine ⟨ClassBForms.words {} (by decide), fun s rs =>
    ⟨fun _ => exec_store_memory rfl rfl, fun rt => ⟨_, rfl, ?_⟩, fun _ _ => exec_store_memory rfl rfl⟩⟩
  have hbyte : byteOf (readReg rs s).toNat = readReg rs s := (byteOf_natCast _).trans (lowByte_toNat _)
  have h := wroteRegister_writeReg rt (readReg rs s).toNat s
  rwa [hbyte] at h

end Sys2Proof.Proofs.LoadStoreFamily
end

section
/-! PROOFS, family 42_alu.md: laws. The two shapes of the ALU as rules of a class B instruction: arithmetic, whose wide
result is narrowed and whose flag is a set of raised bits, and logic, which works on low bytes (R130). -/

namespace Sys2Proof.Machine

open Sys2Proof.Claims

/-! ### Results and flags in plain arithmetic -/

/-- Narrowing is the remainder modulo 256, also of a negative result (R7, R130). -/
theorem narrow_eq_byteOf (wide : Int) : narrow wide = byteOf wide := by
  apply BitVec.eq_of_toNat_eq
  simp only [narrow, byteOf, BitVec.toNat_ofInt, BitVec.toNat_ofNat]
  omega

theorem raiseOverflow_natCast (wide : Nat) (f : Byte) :
    raiseOverflow wide f = f ||| if wide > 255 then 0x08 else 0 := by
  have hwide : (wide : Int) > 255 ↔ wide > 255 := Nat.cast_lt (m := 255)
  rw [raiseOverflow_eq_or]
  simp only [hwide]

theorem raiseOverflow_add (a b : Nat) (f : Byte) :
    raiseOverflow (a + b) f = f ||| if a + b > 255 then 0x08 else 0 :=
  raiseOverflow_natCast (a + b) f

theorem raiseOverflow_mul (a b : Nat) (f : Byte) :
    raiseOverflow (a * b) f = f ||| if a * b > 255 then 0x08 else 0 :=
  raiseOverflow_natCast (a * b) f

theorem raiseUnderflow_sub (a b : Nat) (f : Byte) :
    raiseUnderflow (a - b) f = f ||| if a < b then 0x10 else 0 := by
  have hwide : (a : Int) - b < 0 ↔ a < b := by omega
  rw [raiseUnderflow_eq_or]
  simp only [hwide]

theorem lowByte_mod (b : Nat) : lowByte (b % 256) = lowByte b := by
  apply BitVec.eq_of_toNat_eq
  simp only [lowByte, BitVec.toNat_ofNat]
  omega

/-- Bitwise operations go through the low byte, so the high bits of the operand do not matter (R130, R135). -/
theorem xor_lowByte (a : Byte) (b : Nat) : a ^^^ lowByte b = byteOf (a.toNat ^^^ (b % 256) : Nat) := by
  have hlow (m n : Nat) : lowByte (m ^^^ n) = lowByte m ^^^ lowByte n := BitVec.ofNat_xor
  rw [byteOf_natCast, hlow, lowByte_toNat, lowByte_mod]

/-- R130, R136. -/
theorem and_lowByte (a : Byte) (b : Nat) : a &&& lowByte b = byteOf (a.toNat &&& (b % 256) : Nat) := by
  have hlow (m n : Nat) : lowByte (m &&& n) = lowByte m &&& lowByte n := BitVec.ofNat_and
  rw [byteOf_natCast, hlow, lowByte_toNat, lowByte_mod]

/-- R130, R137. -/
theorem or_lowByte (a : Byte) (b : Nat) : a ||| lowByte b = byteOf (a.toNat ||| (b % 256) : Nat) := by
  have hlow (m n : Nat) : lowByte (m ||| n) = lowByte m ||| lowByte n := BitVec.ofNat_or
  rw [byteOf_natCast, hlow, lowByte_toNat, lowByte_mod]

/-- The complement of a byte is its distance from 255 (R138). -/
theorem not_lowByte (b : Nat) : ~~~lowByte b = byteOf (255 - (b % 256 : Nat)) := by
  apply BitVec.eq_of_toNat_eq
  simp only [byteOf, lowByte, BitVec.toNat_not, BitVec.toNat_ofNat]
  omega

/-! ### A flag update -/

/-- A register write, bits raised in what it left in `FLAGS`, and the advance (R33). -/
theorem wroteRegister_raise (rd : RegIdx) (v : Int) (bits : Byte) (s : State) :
    WroteRegister s rd v bits
      (advance (setFlags ((writeReg rd (byteOf v) s).flags ||| bits) (writeReg rd (byteOf v) s))) := by
  obtain ⟨hregs, hflags, hrest⟩ := wroteRegister_writeReg rd v s
  exact ⟨hregs, congrArg (· ||| bits) (hflags.trans BitVec.or_zero), hrest⟩

/-- A flag update alone and the advance (R28). -/
theorem changedFlags_setFlags {allowed : Byte → Byte → Prop} {g : Byte} {s : State} (h : allowed s.flags g) :
    ChangedFlags s allowed (advance (setFlags g s)) :=
  ⟨rfl, h, advance_pc_toNat s, rfl, rfl, rfl, rfl⟩

/-- For a divisor other than zero the written byte is the quotient of a division with remainder (R134). -/
theorem wroteRegister_quotient (rd : RegIdx) {b : Nat} (hb : b ≠ 0) (s : State) :
    ∃ q r : Nat, (readReg rd s).toNat = q * b + r ∧ r < b ∧
      WroteRegister s rd q 0 (advance (writeReg rd (lowByte ((readReg rd s).toNat / b)) s)) := by
  refine ⟨_, _, (Nat.div_add_mod' _ b).symm, Nat.mod_lt _ (Nat.pos_of_ne_zero hb), ?_⟩
  rw [← byteOf_natCast]
  exact wroteRegister_writeReg rd _ s

end Sys2Proof.Machine

namespace Sys2Proof

open Sys2Proof.Machine Sys2Proof.Claims

/-! ### The shapes as rules -/

section
variable {n : Nat} {lit : RegIdx → Half → Instr} {reg : RegIdx → RegIdx → Instr} {rel : RegIdx → RegIdx → Half → Instr}

/-- Arithmetic whose flag function raises `bits` of its two inputs obeys the rule with its wide result (R130, R33). -/
theorem ClassBForms.arithmetic_rule (forms : ClassBForms n lit reg rel) (hn : n < 2 ^ 5)
    {wideOf : Int → Int → Int} {raise : Int → Byte → Byte}
    (exec_lit : ∀ s r0 v, exec (lit r0 v) s = arithmetic wideOf raise r0 (.lit v) s)
    (exec_reg : ∀ s r0 r1, exec (reg r0 r1) s = arithmetic wideOf raise r0 (.reg r1) s)
    (exec_rel : ∀ s r0 rb off, exec (rel r0 rb off) s = arithmetic wideOf raise r0 (.rel rb off) s)
    {bits : Nat → Nat → Byte} (hraise : ∀ (a b : Nat) (f : Byte), raise (wideOf a b) f = f ||| bits a b) :
    ClassBRule n lit reg rel fun s rd b t =>
      WroteRegister s rd (wideOf (readReg rd s).toNat b) (bits (readReg rd s).toNat b) t := by
  refine forms.rule hn _ exec_lit exec_reg exec_rel fun s rd b => ?_
  simp only [hraise, narrow_eq_byteOf]
  exact wroteRegister_raise rd _ _ s

/-- Logic whose result is `value` modulo 256 obeys the rule with that value and no flag (R130). -/
theorem ClassBForms.logic_rule (forms : ClassBForms n lit reg rel) (hn : n < 2 ^ 5) {resultOf : Byte → Byte → Byte}
    (exec_lit : ∀ s r0 v, exec (lit r0 v) s = logic resultOf r0 (.lit v) s)
    (exec_reg : ∀ s r0 r1, exec (reg r0 r1) s = logic resultOf r0 (.reg r1) s)
    (exec_rel : ∀ s r0 rb off, exec (rel r0 rb off) s = logic resultOf r0 (.rel rb off) s)
    {value : Byte → Nat → Int} (hvalue : ∀ a b, resultOf a (lowByte b) = byteOf (value a b)) :
    ClassBRule n lit reg rel fun s rd b t => WroteRegister s rd (value (readReg rd s) b) 0 t := by
  refine forms.rule hn _ exec_lit exec_reg exec_rel fun s rd b => ?_
  rw [hvalue]
  exact wroteRegister_writeReg rd _ s

end

end Sys2Proof
end

section
/-! PROOFS, family 42_alu.md: the statements. -/

namespace Sys2Proof.Proofs.AluFamily

open Sys2Proof.Machine Sys2Proof.Claims

/-- Settles O9: the wide sum of two naturals is a natural, and `OV` is raised by one above 255. -/
theorem addStoresTheSumAndRaisesOverflow : Obligations.AddStoresTheSumAndRaisesOverflow :=
  ClassBForms.arithmetic_rule {} (by decide) (fun _ _ _ => rfl) (fun _ _ _ => rfl) (fun _ _ _ _ => rfl)
    raiseOverflow_add

/-- Settles O10: the wide difference is negative exactly when the operand is the greater. -/
theorem subStoresTheDifferenceAndRaisesUnderflow : Obligations.SubStoresTheDifferenceAndRaisesUnderflow :=
  ClassBForms.arithmetic_rule {} (by decide) (fun _ _ _ => rfl) (fun _ _ _ => rfl) (fun _ _ _ _ => rfl)
    raiseUnderflow_sub

/-- Settles O11: the wide product of two naturals is a natural, and `OV` is raised by one above 255. -/
theorem mulStoresTheLowProductAndRaisesOverflow : Obligations.MulStoresTheLowProductAndRaisesOverflow :=
  ClassBForms.arithmetic_rule {} (by decide) (fun _ _ _ => rfl) (fun _ _ _ => rfl) (fun _ _ _ _ => rfl)
    raiseOverflow_mul

/-- Settles O12: for the divisor zero a flag alone changes, and for any other the quotient alone is written. -/
theorem divStoresTheQuotientOrRaisesDivideByZero : Obligations.DivStoresTheQuotientOrRaisesDivideByZero := by
  refine ClassBForms.rule {} (by decide) _ (fun _ _ _ => rfl) (fun _ _ _ => rfl) (fun _ _ _ _ => rfl)
    fun s rd b => ⟨fun hb => ?_, fun hb => ?_⟩
  · rw [if_pos hb]
    exact changedFlags_setFlags rfl
  · rw [if_neg hb]
    exact wroteRegister_quotient rd hb s

/-- Settles O13: the low byte of the operand is XORed as a number below 256 (R130, R135). -/
theorem xorStoresTheExclusiveOr : Obligations.XorStoresTheExclusiveOr :=
  ClassBForms.logic_rule {} (by decide) (fun _ _ _ => rfl) (fun _ _ _ => rfl) (fun _ _ _ _ => rfl) xor_lowByte

/-- Settles O14, as O13 with AND. -/
theorem andStoresTheConjunction : Obligations.AndStoresTheConjunction :=
  ClassBForms.logic_rule {} (by decide) (fun _ _ _ => rfl) (fun _ _ _ => rfl) (fun _ _ _ _ => rfl) and_lowByte

/-- Settles O15, as O13 with OR. -/
theorem orStoresTheDisjunction : Obligations.OrStoresTheDisjunction :=
  ClassBForms.logic_rule {} (by decide) (fun _ _ _ => rfl) (fun _ _ _ => rfl) (fun _ _ _ _ => rfl) or_lowByte

/-- Settles O16: the old value of the target is no input. -/
theorem notStoresTheComplementOfItsOperand : Obligations.NotStoresTheComplementOfItsOperand :=
  ClassBForms.logic_rule {} (by decide) (fun _ _ _ => rfl) (fun _ _ _ => rfl) (fun _ _ _ _ => rfl)
    fun _ => not_lowByte

end Sys2Proof.Proofs.AluFamily
end

section
/-! PROOFS, family 43_compare.md: laws. What `CMP` of two naturals leaves in `FLAGS`, in the arithmetic of the claims: the
compare code is `FLAGS mod 4` and the other bits are `FLAGS / 4` (R30, R150). -/

namespace Sys2Proof.Machine

theorem toNat_and_high_div_four (f : Byte) : (f &&& 0xFC).toNat / 4 = f.toNat / 4 := by
  revert f; decide

/-- `compareFlags_high`, as numbers. -/
theorem compareFlags_div_four (d : Int) (f : Byte) : (compareFlags d f).toNat / 4 = f.toNat / 4 := by
  rw [← toNat_and_high_div_four, compareFlags_high, toNat_and_high_div_four]

/-- `compareCode_compareFlags`, as numbers. -/
theorem compareFlags_mod_four (d : Int) (f : Byte) :
    (compareFlags d f).toNat % 4 = if d = 0 then 1 else if d < 0 then 2 else 0 := by
  rw [← compareCode_toNat, compareCode_compareFlags]
  split
  · rfl
  · split <;> rfl

/-- The sign of the difference of two naturals is their order, so the comparison is unsigned (R150). -/
theorem compareFlags_sub_code (a b : Nat) (f : Byte) :
    (a = b → (compareFlags (a - b) f).toNat % 4 = 1) ∧ (a < b → (compareFlags (a - b) f).toNat % 4 = 2) ∧
      (b < a → (compareFlags (a - b) f).toNat % 4 = 0) := by
  rw [compareFlags_mod_four]
  refine ⟨fun h => ?_, fun h => ?_, fun h => ?_⟩
  · rw [if_pos (by omega)]
  · rw [if_neg (by omega), if_pos (by omega)]
  · rw [if_neg (by omega), if_neg (by omega)]

end Sys2Proof.Machine
end

section
/-! PROOFS, family 43_compare.md: the statements. -/

namespace Sys2Proof.Proofs.CompareFamily

open Sys2Proof.Machine Sys2Proof.Claims

/-- Settles O17: every form is one flag update, whose code is the order of the register and the operand. -/
theorem cmpSetsTheCompareCode : Obligations.CmpSetsTheCompareCode :=
  ClassBForms.rule {} (by decide) _ (fun _ _ _ => rfl) (fun _ _ _ => rfl) (fun _ _ _ _ => rfl)
    fun s _ b => changedFlags_setFlags ⟨compareFlags_div_four _ s.flags, compareFlags_sub_code _ b s.flags⟩

/-- Settles O18, from the literal form of O17: the three rows are its three orders. -/
theorem compareOutcomesOfTheDocument : Obligations.CompareOutcomesOfTheDocument := by
  refine ⟨by decide, fun s => ?_⟩
  obtain ⟨-, hrule⟩ := cmpSetsTheCompareCode
  obtain ⟨t, ht, -, ⟨-, hequal, hless, hgreater⟩, -⟩ := (hrule s 1).1 5
  have hr1 : readReg 1 s = s.regs[1] := readReg_cell (by decide) s
  rw [hr1] at hequal hless hgreater
  refine ⟨t, ht, fun h => hequal ?_, fun h => hless ?_, fun h => hgreater ?_⟩ <;> (rw [h]; decide)

end Sys2Proof.Proofs.CompareFamily
end

section
/-! PROOFS, family 44_jumps.md: laws. The words of a jump as numbers, and the rule of a jump for the compare codes on which
it is taken (R160, R161). -/

namespace Sys2Proof

open Sys2Proof.Machine Sys2Proof.Claims

/-- A jump moves `pc` alone: to its target on its codes, and to the next word otherwise (R161). -/
theorem exec_jump_moves_pc {i : Instr} {codes : List (BitVec 2)} {t : Target} (h : jumpOf i = some (codes, t))
    {s : State} {taken : Prop} (htaken : compareCode s.flags ∈ codes ↔ taken) :
    ∃ p : Half, exec i s = .next { s with pc := p } ∧ (taken → p.toNat = (targetAddress t s).toNat) ∧
      (¬taken → p.toNat = nextPc s) := by
  rw [exec_of_jump h, jumpOnCode]
  by_cases hc : compareCode s.flags ∈ codes
  · exact ⟨_, if_pos hc, fun _ => rfl, fun hn => (hn (htaken.mp hc)).elim⟩
  · exact ⟨_, if_neg hc, fun hy => (hc (htaken.mpr hy)).elim, fun _ => advance_pc_toNat s⟩

section
variable {n : Nat} {lit pcr : Half → Instr}

/-- The fields of the two formats at their places (R75). -/
theorem JumpForms.words (forms : JumpForms n lit pcr) (hn : n < 2 ^ 5) : JumpWords n lit pcr := by
  have hopc : (BitVec.ofNat 5 n).toNat = n := Nat.mod_eq_of_lt hn
  refine ⟨fun v => ?_, fun d => ?_⟩
  · rw [forms.encode_lit, packUValue_toNat, hopc]; rfl
  · rw [forms.encode_pcr, packUValue_toNat, hopc]; rfl

/-- Two forms taken on the same codes obey the rule for these codes as numbers, `FLAGS mod 4` (R160). -/
theorem JumpForms.rule (forms : JumpForms n lit pcr) (hn : n < 2 ^ 5) {codes : List (BitVec 2)}
    (hlit : ∀ v, jumpOf (lit v) = some (codes, .lit v)) (hpcr : ∀ d, jumpOf (pcr d) = some (codes, .pcr d))
    {taken : Nat → Prop} (htaken : ∀ f : Byte, compareCode f ∈ codes ↔ taken (f.toNat % 4)) :
    JumpRule n lit pcr taken := by
  refine ⟨forms.words hn, fun s => ⟨fun v => exec_jump_moves_pc (hlit v) (htaken s.flags), fun d => ?_⟩⟩
  have htarget : (targetAddress (.pcr d) s).toNat = (s.pc.toNat + d.toNat) % 65536 := BitVec.toNat_add s.pc d
  rw [← htarget]
  exact exec_jump_moves_pc (hpcr d) (htaken s.flags)

end

theorem compareCode_mem_singleton (f : Byte) (c : BitVec 2) : compareCode f ∈ [c] ↔ f.toNat % 4 = c.toNat := by
  rw [List.mem_singleton, compareCode_eq_iff]

theorem compareCode_mem_pair (f : Byte) (c d : BitVec 2) :
    compareCode f ∈ [c, d] ↔ f.toNat % 4 = c.toNat ∨ f.toNat % 4 = d.toNat := by
  rw [List.mem_pair, compareCode_eq_iff, compareCode_eq_iff]

end Sys2Proof
end

section
/-! PROOFS, family 44_jumps.md: the statements. Each names the codes of its jump; the rest is the rule of every jump. -/

namespace Sys2Proof.Proofs.JumpFamily

open Sys2Proof.Machine Sys2Proof.Claims

/-- Settles O20: the one code is less-than. -/
theorem jmplJumpsOnLess : Obligations.JmplJumpsOnLess :=
  JumpForms.rule {} (by decide) (fun _ => rfl) (fun _ => rfl) fun f => compareCode_mem_singleton f codeLess

/-- Settles O21: the one code is greater-than. -/
theorem jmpgJumpsOnGreater : Obligations.JmpgJumpsOnGreater :=
  JumpForms.rule {} (by decide) (fun _ => rfl) (fun _ => rfl) fun f => compareCode_mem_singleton f codeGreater

/-- Settles O22: the two codes are less-than and equal, so `0b11` falls through (R160). -/
theorem jmpleJumpsOnLessOrEqual : Obligations.JmpleJumpsOnLessOrEqual :=
  JumpForms.rule {} (by decide) (fun _ => rfl) (fun _ => rfl) fun f => compareCode_mem_pair f codeLess codeEqual

/-- Settles O23: the two codes are greater-than and equal, so `0b11` falls through (R160). -/
theorem jmpgeJumpsOnGreaterOrEqual : Obligations.JmpgeJumpsOnGreaterOrEqual :=
  JumpForms.rule {} (by decide) (fun _ => rfl) (fun _ => rfl) fun f => compareCode_mem_pair f codeGreater codeEqual

/-- Settles O19: every compare code is one of the four, so the clause of a jump not taken says nothing. -/
theorem jmpAlwaysJumps : Obligations.JmpAlwaysJumps :=
  JumpForms.rule {} (by decide) (fun _ => rfl) (fun _ => rfl) fun f => iff_of_true (compareCode_mem_all f) trivial

end Sys2Proof.Proofs.JumpFamily
end

section
/-! PROOFS, family 45_halt_print.md: laws. The words of `HLT` and `PRINT` as numbers, and what `PRINT` of an operand does,
for every form at once (R170, R171). -/

namespace Sys2Proof

/-- A word below 2^27 has opcode 0 (R81). -/
theorem decodeWord_hlt_of_lt {w : Word} (h : w.toNat < 2 ^ 27) : decodeWord w = .ok .hlt :=
  decodeWord_hlt ((opcode_toNat w).trans (Nat.div_eq_of_lt h))

/-! ### The fields of the formats of `PRINT` at their places (R75 to R77) -/

theorem encode_printLit_toNat (v : Half) :
    (encode (.printLit v)).toNat = 17 * 2 ^ 27 + 0 * 2 ^ 24 + v.toNat * 2 ^ 8 :=
  packUValue_toNat _ v

theorem encode_printReg_toNat (rs : RegIdx) :
    (encode (.printReg rs)).toNat = 17 * 2 ^ 27 + 1 * 2 ^ 24 + rs.toNat * 2 ^ 20 :=
  packUReg_toNat _ rs

theorem encode_printRel_toNat (rb : RegIdx) (off : Half) :
    (encode (.printRel rb off)).toNat = 17 * 2 ^ 27 + 2 * 2 ^ 24 + rb.toNat * 2 ^ 20 + off.toNat * 2 ^ 4 :=
  packURel_toNat _ rb off

end Sys2Proof

namespace Sys2Proof.Machine

/-! ### Printing an operand -/

/-- With an operand value, `PRINT` moves `pc` to the next word and appends the low byte to `OUT` (R28, R171). -/
theorem opPrint_some {op : Operand} {s : State} {b : Nat} (h : sourceValue op s = some b) :
    opPrint op s = .next { s with pc := (advance s).pc, out := s.out ++ [lowByte b] } :=
  withSource_some h _

/-- An operand value that is a byte is its own low byte. -/
theorem opPrint_byte {op : Operand} {s : State} {v : Byte} (h : sourceValue op s = some v.toNat) :
    opPrint op s = .next { s with pc := (advance s).pc, out := s.out ++ [v] } := by
  rw [opPrint_some h, lowByte_toNat]

/-- Without an operand value, `PRINT` faults and emits nothing (R106, R171). -/
theorem opPrint_none {op : Operand} {s : State} (h : sourceValue op s = none) :
    opPrint op s = .next (haltWith .dataOutOfRange s) :=
  withSource_none h _

end Sys2Proof.Machine
end

section
/-! PROOFS, family 45_halt_print.md: the statements. -/

namespace Sys2Proof.Proofs.HaltPrintFamily

open Sys2Proof.Machine Sys2Proof.Claims

/-- Settles O25: a literal is cut to its low byte, and a register or an existing memory byte is a byte already. -/
theorem printAppendsTheLowByte : Obligations.PrintAppendsTheLowByte := by
  refine ⟨encode_printLit_toNat, encode_printReg_toNat, encode_printRel_toNat, fun s =>
    ⟨(advance s).pc, advance_pc_toNat s, fun v => ?_, fun rs => ?_, fun rb off => ⟨fun h => ?_, fun h => ?_⟩⟩⟩
  · rw [byteOf_natCast]
    exact opPrint_some (sourceValue_lit v s)
  · exact opPrint_byte (sourceValue_reg rs s)
  · exact opPrint_byte (sourceValue_rel (Nat.lt_succ_of_le h))
  · exact opPrint_none (sourceValue_rel_none h)

/-- Settles O24: `HLT` answers a halted state, and a step of a halted state changes nothing (R35). -/
theorem hltHaltsAndKeepsThePc : Obligations.HltHaltsAndKeepsThePc :=
  ⟨fun _ => decodeWord_hlt_of_lt, rfl, fun s => ⟨haltWith .haltInstruction s, rfl, rfl, rfl, step_halted rfl⟩⟩

end Sys2Proof.Proofs.HaltPrintFamily
end

section
/-! PROOFS, family 60_exceptions.md: laws. Where a fault comes from: the fetch, whose word is refused by its class alone, or
a data address above 4095; and that an instruction with neither leaves `STATE` and `CAUSE` alone (R184 to R190). -/

namespace Sys2Proof.Machine

open Sys2Proof.Claims

/-! ### Faults of a fetch -/

/-- The fetched word as the claims number it (R51, R53). -/
theorem fetchWord_toNat (s : State) : (fetchWord s).toNat = fetchedWord s :=
  wordOfBytes_toNat _ _ _ _

theorem fetch_of_badWord {s : State} {b : BadWord} (hpc : s.pc.toNat ≤ 4092)
    (h : decodeWord (fetchWord s) = .error b) : fetch s = .error (badWordCause b) := by
  rw [fetch_in_range hpc, h]

/-- No word that is read is refused with the cause of the range check (R102, R186). -/
theorem fetch_outOfRange_iff (s : State) : fetch s = .error .fetchOutOfRange ↔ 4092 < s.pc.toNat := by
  refine ⟨fun h => Nat.lt_of_not_le fun hpc => ?_, fetch_out_of_range⟩
  rw [fetch_in_range hpc] at h
  split at h
  · cases h
  · next b _ => cases b <;> cases h

/-! ### Faults of a step -/

/-- A step that ends in a fault has taken the fault of its fetch or a data fault, and halting is all it did (R184). -/
theorem step_faults {s t : State} (hrun : s.run = .running) (hcause : s.cause = .none) (h : step s = .next t)
    (hfault : t.cause.isFault = true) :
    t = haltWith t.cause s ∧ (fetch s = .error t.cause ∨ t.cause = .dataOutOfRange) := by
  rcases step_cases s with ⟨hs, -⟩ | ⟨c, -, hf, e⟩ | ⟨i, u, -, -, e, he, hu⟩
  · cases hrun.symm.trans hs
  · cases h.symm.trans e
    exact ⟨rfl, .inl hf⟩
  · cases h.symm.trans (e.trans he)
    cases hu with
    | dataFault => exact ⟨rfl, .inr rfl⟩
    | halt => cases hfault
    | _ =>
      -- every other shape leaves `CAUSE` as it was, and `NONE` is no fault
      cases (congrArg Cause.isFault hcause).symm.trans hfault

/-! ### Data addresses -/

/-- The memory address a source operand names, if any (R106). -/
def sourceAddress (op : Operand) (s : State) : Option Nat :=
  match op with
  | .rel rb off => some (effectiveAddress rb off s)
  | _ => none

/-- A source operand has no value exactly when it names an address that does not exist (R106, R187). -/
theorem sourceValue_eq_none_iff (op : Operand) (s : State) :
    sourceValue op s = none ↔ ∃ a, sourceAddress op s = some a ∧ 4095 < a := by
  cases op with
  | lit | reg => simp [sourceAddress]
  | rel rb off =>
    simp only [sourceAddress, Option.some.injEq, exists_eq_left']
    rcases Nat.lt_or_ge 4095 (effectiveAddress rb off s) with h | h
    · exact iff_of_true (sourceValue_rel_none h) h
    · rw [sourceValue_rel (Nat.lt_succ_of_le h)]
      exact iff_of_false nofun (Nat.not_lt.mpr h)

theorem dataAddress_of_source {i : Instr} {op : Operand} (h : sourceOf i = some op) (s : State) :
    dataAddress i s = sourceAddress op s := by
  cases i <;> cases h <;> rfl

theorem dataAddress_of_store {i : Instr} {rs : RegIdx} {dest : Operand} (h : storeOf i = some (rs, dest)) (s : State) :
    dataAddress i s = storeAddress dest s := by
  cases i <;> cases h <;> rfl

theorem dataAddress_of_jump {i : Instr} {codes : List (BitVec 2)} {t : Target} (h : jumpOf i = some (codes, t))
    (s : State) : dataAddress i s = none := by
  cases i <;> cases h <;> rfl

/-- Reads and writes alike fault on a data address above 4095 (R187). -/
theorem exec_dataFault {i : Instr} {s : State} {a : Nat} (hd : dataAddress i s = some a) (ha : 4095 < a) :
    exec i s = .next (haltWith .dataOutOfRange s) := by
  rcases instr_kinds i with rfl | ⟨op, h⟩ | ⟨rs, dest, h⟩ | ⟨codes, t, h⟩
  · cases hd
  · rw [dataAddress_of_source h] at hd
    rw [exec_of_source h]
    exact withSource_none ((sourceValue_eq_none_iff op s).mpr ⟨a, hd, ha⟩) _
  · rw [dataAddress_of_store h] at hd
    exact exec_store_fault h hd ha
  · cases (dataAddress_of_jump h s).symm.trans hd

/-- An answer that is a next state with the `STATE` and `CAUSE` of `s`. -/
def KeepsStateAndCause (s : State) (r : Result) : Prop := ∃ t, r = .next t ∧ t.run = s.run ∧ t.cause = s.cause

theorem jumpOnCode_keeps (codes : List (BitVec 2)) (t : Target) (s : State) :
    KeepsStateAndCause s (jumpOnCode codes t s) := by
  unfold jumpOnCode
  split <;> exact ⟨_, rfl, rfl, rfl⟩

/-- An instruction other than `HLT` halts only on a data address that does not exist (R187). -/
theorem exec_keeps {i : Instr} {s : State} (hd : ∀ a, dataAddress i s = some a → a ≤ 4095) (hi : i ≠ .hlt) :
    KeepsStateAndCause s (exec i s) := by
  rcases instr_kinds i with rfl | ⟨op, h⟩ | ⟨rs, dest, h⟩ | ⟨codes, t, h⟩
  · exact absurd rfl hi
  · rw [exec_of_source h]
    rw [dataAddress_of_source h] at hd
    rcases withSource_cases op s fun b => sourceEffect i b s with ⟨b, -, e⟩ | ⟨hb, -⟩
    · exact ⟨_, e, (sourceEffect_formEffect h b s).control.2⟩
    · obtain ⟨a, ha, hlt⟩ := (sourceValue_eq_none_iff op s).mp hb
      exact absurd (hd a ha) (Nat.not_le.mpr hlt)
  · rw [exec_of_store h]
    rw [dataAddress_of_store h] at hd
    rcases storeTo_cases dest (readReg rs s) s with ⟨a, -, -, e⟩ | ⟨r, -, e⟩ | ⟨a, ha, hge, -⟩
    · exact ⟨_, e, rfl, rfl⟩
    · exact ⟨_, e, rfl, rfl⟩
    · exact absurd (hd a ha) (Nat.not_le.mpr hge)
  · rw [exec_of_jump h]
    exact jumpOnCode_keeps codes t s

end Sys2Proof.Machine
end

section
/-! PROOFS, family 60_exceptions.md: the statements. -/

namespace Sys2Proof.Proofs.ExceptionsFamily

open Sys2Proof.Machine Sys2Proof.Claims

/-- Settles O27: within range the class of the word, by O28, decides between the two refusals and execution. -/
theorem checksComeInTheirOrder : Obligations.ChecksComeInTheirOrder := by
  intro s hrun
  obtain ⟨hlegal, hopcode, hmode⟩ := EncodingFamily.everyWordHasOneClass (fetchWord s)
  rw [fetchWord_toNat] at hlegal hopcode hmode
  refine ⟨fun h => step_fault hrun (fetch_out_of_range h), fun hpc => ⟨fun h => ?_, fun h => ?_, fun h => ?_⟩⟩
  · exact step_fault hrun (fetch_of_badWord hpc (hopcode.mpr h))
  · exact step_fault hrun (fetch_of_badWord hpc (hmode.mpr h))
  · obtain ⟨i, hi⟩ := hlegal.mpr h
    exact ⟨i, (fetchedIs_iff s i).mpr hi, step_exec hrun (fetch_of_decodeWord hpc hi)⟩

/-- Settles O38: halting is all that a faulting step does. -/
theorem faultingStepChangesOnlyStateAndCause : Obligations.FaultingStepChangesOnlyStateAndCause := by
  intro s t hrun hcause h hfault
  obtain ⟨ht, -⟩ := step_faults hrun hcause h hfault
  exact ht

/-- Settles O39: the cause is that of the fetch, since it is no data fault, and no other check of a fetch gives it; by O38
nothing else changed. -/
theorem fetchFaultsExactlyAbove4092 : Obligations.FetchFaultsExactlyAbove4092 := by
  intro s t hrun hcause h
  refine ⟨⟨fun hc => ?_, fun hpc => ?_⟩, fun hc => ?_⟩
  · obtain ⟨-, hfetch⟩ := step_faults hrun hcause h (by rw [hc]; rfl)
    rw [hc] at hfetch
    exact (fetch_outOfRange_iff s).mp (hfetch.resolve_right nofun)
  · cases h.symm.trans (step_fault hrun (fetch_out_of_range hpc))
    rfl
  · have ht := faultingStepChangesOnlyStateAndCause s t hrun hcause h (by rw [hc]; rfl)
    rwa [hc] at ht

/-- Settles O40: with a data address beyond the end every kind of instruction faults, and without one only `HLT` halts. -/
theorem dataFaultsExactlyAbove4095 : Obligations.DataFaultsExactlyAbove4095 :=
  fun _ _ => ⟨fun _ => exec_dataFault, exec_keeps⟩

end Sys2Proof.Proofs.ExceptionsFamily
end

section
/-! PROOFS, family 70_reset_and_hazards.md: laws. Which images the host's load refuses, that a loaded machine is a reset one,
and that the invariant holds after the host's operations and along every run. -/

namespace Sys2Proof.Machine

/-! ### The host's load -/

/-- An image that is no whole number of words, or that does not fit, is refused (R211). -/
theorem hostLoad_refused {image : List Byte} (h : ¬(image.length % 4 = 0 ∧ 0x200 + image.length ≤ 4096)) :
    hostLoad image = none := by
  rw [hostLoad, if_neg]
  rwa [imageAccepted, Bool.and_eq_true, decide_eq_true_iff, decide_eq_true_iff]

/-- Reset is the last thing a load does (R211), so resetting a loaded machine changes nothing. -/
theorem hostReset_of_hostLoad {image : List Byte} {s : State} (h : hostLoad image = some s) : hostReset s = s := by
  unfold hostLoad at h
  split at h
  · cases h
    rfl
  · cases h

/-! ### The invariant -/

/-- Reset makes every part of the invariant hold but that of memory, which it keeps. -/
theorem hostReset_inv {s : State} (h : s.mem.wf = true) : (hostReset s).Inv := by
  obtain ⟨-, hflags, hcause⟩ := Proofs.StateFamily.resetMeetsTheInvariant
  exact ⟨h, hflags, hcause⟩

theorem hostLoad_inv {image : List Byte} {s : State} (h : hostLoad image = some s) : s.Inv := by
  rw [← hostReset_of_hostLoad h]
  exact hostReset_inv (hostLoad_wf h)

/-- What every step keeps holds of every reached state. -/
theorem reaches_inv {s t : State} (hs : s.Inv) (h : Reaches s t) : t.Inv := by
  induction h with
  | refl => exact hs
  | step _ e ih => exact Proofs.StateFamily.stepKeepsTheInvariant _ _ ih e

/-! ### How a run ends -/

/-- The causes of a halted machine are `HALT_INSTRUCTION` and the faults (R181). -/
theorem isFault_iff_ne_haltInstruction {c : Cause} (h : c ≠ .none) : c.isFault = true ↔ c ≠ .haltInstruction := by
  cases c with
  | none => exact absurd rfl h
  | haltInstruction => exact iff_of_false nofun (absurd rfl)
  | unknownOpcode | illegalMode | fetchOutOfRange | dataOutOfRange => exact iff_of_true rfl nofun

theorem cause_ne_none_of_ended {s : State} (hs : s.Inv) (h : s.ended) : s.cause ≠ .none := by
  obtain ⟨-, -, hcause⟩ := hs
  intro hn
  cases h.symm.trans (hcause.mpr hn)

end Sys2Proof.Machine
end

section
/-! PROOFS, family 70_reset_and_hazards.md: the statements. -/

namespace Sys2Proof.Proofs.ResetFamily

open Sys2Proof.Machine Sys2Proof.Claims

/-- Settles O3: both states are the reset state but for their memory. -/
theorem resetSetsEveryComponentButMemory : Obligations.ResetSetsEveryComponentButMemory := by
  intro s t ht
  obtain ⟨m, rfl⟩ : ∃ m, t = { State.reset with mem := m } := by
    rcases ht with rfl | rfl
    · exact ⟨s.mem, rfl⟩
    · exact ⟨[], rfl⟩
  exact ⟨fun k hk => Vector.getElem_replicate hk, rfl, rfl, rfl, rfl, rfl, congrArg State.mem⟩

/-- Settles O4: the empty image is accepted and writes nothing. -/
theorem resetStateIsTheLoadOfTheEmptyImage : Obligations.ResetStateIsTheLoadOfTheEmptyImage :=
  hostLoad_accepted (image := []) rfl (by decide)

/-- Settles O5: the empty image loads to the reset state, whose first word is zero, and the bytes of any accepted image are
copied into a memory that is all zero. -/
theorem loadPlacesTheImageAndResets : Obligations.LoadPlacesTheImageAndResets := by
  refine ⟨?_, fun image => ⟨fun ⟨hlen, hfit⟩ => ?_, hostLoad_refused⟩⟩
  · have hword : decodeWord (fetchWord State.reset) = .ok .hlt := rfl
    exact ⟨_, resetStateIsTheLoadOfTheEmptyImage, rfl, (fetchedIs_iff _ _).mpr hword,
      step_exec rfl (fetch_of_decodeWord (by decide) hword)⟩
  · exact ⟨_, hostLoad_accepted hlen hfit, fun k hk => memRead_memWriteAll_inside rfl hfit hk,
      fun a ha => memRead_memWriteAll_outside [] ha, rfl⟩

/-- Settles O35: the invariant holds after either operation of the host, and along the run that follows. -/
theorem everyLoadedRunMeetsTheInvariant : Obligations.EveryLoadedRunMeetsTheInvariant :=
  ⟨fun _ _ _ hload h => reaches_inv (hostLoad_inv hload) h,
    fun _ _ ⟨hmem, _, _⟩ h => reaches_inv (hostReset_inv hmem) h⟩

/-- Settles O50: by the invariant an ended run has a cause, and that is `HALT_INSTRUCTION` or else a fault. -/
theorem endedRunEndedInExactlyOneWay : Obligations.EndedRunEndedInExactlyOneWay := by
  intro s t hs h hend
  have hfault := isFault_iff_ne_haltInstruction (cause_ne_none_of_ended (reaches_inv hs h) hend)
  refine ⟨?_, fun ⟨⟨_, hhlt⟩, ⟨_, hf⟩⟩ => hfault.mp hf hhlt⟩
  rcases eq_or_ne t.cause .haltInstruction with hhlt | hhlt
  · exact .inl ⟨hend, hhlt⟩
  · exact .inr ⟨hend, hfault.mpr hhlt⟩

end Sys2Proof.Proofs.ResetFamily
end
